-- ==== Sys2Proof/Word.lean ====
section
/-! DEFINITION. The machine's words: bytes, 16-bit words, 12-bit addresses, register and key numbers. -/

namespace Sys2Proof

/-- A byte: a V register, a timer, a memory cell (10_state R30, R37, R38, R40). -/
abbrev Byte := BitVec 8

/-- A 16-bit word: I, PC, a stack entry, an opcode (10_state R33, R34, R36; 30_encoding R100). -/
abbrev Word := BitVec 16

/-- The 12-bit address field NNN (30_encoding R103). -/
abbrev Addr12 := BitVec 12

/-- The number of a general register, 0x0-0xF (10_state R30). -/
abbrev Reg := Fin 16

/-- The 4-bit row count N of DXYN, 0..15 (30_encoding R103, R104). -/
abbrev RowCount := Fin 16

/-- The number of a logical key, 0x0-0xF (10_state R43). -/
abbrev Key := Fin 16

/-- A pixel column, 0..63 (10_state R42). -/
abbrev Col := Fin 64

/-- A pixel row, 0..31 (10_state R42). -/
abbrev Row := Fin 32

end Sys2Proof
end

