-- ==== Sys2Proof/Syntax.lean ====
section
/-! DEFINITION. The instructions: one constructor for each of the 35 rows of spec/opcode_table.json (30_encoding R105). -/

namespace Sys2Proof

/-- An instruction with its operand fields (30_encoding R103). SHR and SHL keep the Y field that they ignore and SYS its
NNN, so that an instruction stands for exactly one word. -/
inductive Instr where
  /-- `0nnn` but 00E0 and 00EE: SYS NNN -/
  | sys (nnn : Addr12)
  /-- `00E0`: CLS -/
  | cls
  /-- `00EE`: RET -/
  | ret
  /-- `1nnn`: JP NNN -/
  | jp (nnn : Addr12)
  /-- `2nnn`: CALL NNN -/
  | call (nnn : Addr12)
  /-- `3xkk`: SE VX, NN -/
  | seImm (x : Reg) (nn : Byte)
  /-- `4xkk`: SNE VX, NN -/
  | sneImm (x : Reg) (nn : Byte)
  /-- `5xy0`: SE VX, VY -/
  | seReg (x y : Reg)
  /-- `6xkk`: LD VX, NN -/
  | ldImm (x : Reg) (nn : Byte)
  /-- `7xkk`: ADD VX, NN -/
  | addImm (x : Reg) (nn : Byte)
  /-- `8xy0`: LD VX, VY -/
  | ldReg (x y : Reg)
  /-- `8xy1`: OR VX, VY -/
  | orReg (x y : Reg)
  /-- `8xy2`: AND VX, VY -/
  | andReg (x y : Reg)
  /-- `8xy3`: XOR VX, VY -/
  | xorReg (x y : Reg)
  /-- `8xy4`: ADD VX, VY -/
  | addReg (x y : Reg)
  /-- `8xy5`: SUB VX, VY -/
  | sub (x y : Reg)
  /-- `8xy6`: SHR VX -/
  | shr (x y : Reg)
  /-- `8xy7`: SUBN VX, VY -/
  | subn (x y : Reg)
  /-- `8xyE`: SHL VX -/
  | shl (x y : Reg)
  /-- `9xy0`: SNE VX, VY -/
  | sneReg (x y : Reg)
  /-- `Annn`: LD I, NNN -/
  | ldI (nnn : Addr12)
  /-- `Bnnn`: JP V0, NNN -/
  | jpV0 (nnn : Addr12)
  /-- `Cxkk`: RND VX, NN -/
  | rnd (x : Reg) (nn : Byte)
  /-- `Dxyn`: DRW VX, VY, N -/
  | drw (x y : Reg) (n : RowCount)
  /-- `Ex9E`: SKP VX -/
  | skp (x : Reg)
  /-- `ExA1`: SKNP VX -/
  | sknp (x : Reg)
  /-- `Fx07`: LD VX, DT -/
  | ldVxDt (x : Reg)
  /-- `Fx0A`: LD VX, K -/
  | ldVxK (x : Reg)
  /-- `Fx15`: LD DT, VX -/
  | ldDtVx (x : Reg)
  /-- `Fx18`: LD ST, VX -/
  | ldStVx (x : Reg)
  /-- `Fx1E`: ADD I, VX -/
  | addI (x : Reg)
  /-- `Fx29`: LD F, VX -/
  | ldF (x : Reg)
  /-- `Fx33`: LD B, VX -/
  | ldB (x : Reg)
  /-- `Fx55`: LD [I], VX -/
  | ldMemStore (x : Reg)
  /-- `Fx65`: LD VX, [I] -/
  | ldMemLoad (x : Reg)
  deriving DecidableEq, Repr

end Sys2Proof
end

