-- ==== Sys2Proof/Decode.lean ====
section
/-! DEFINITION. Decoding (30_encoding R102-R111), total on any bytes and rejecting by name; then the encoder, written from
the same table (R105). -/

namespace Sys2Proof

/-- Why bytes are no instruction. -/
inductive DecodeError where
  /-- The word matches no row of the table (30_encoding R108). -/
  | unknown (op : Word)
  /-- Fewer than the two bytes of an instruction (30_encoding R102). -/
  | truncated
  deriving DecidableEq, Repr

/-- op[15:12], the major code (30_encoding R102). -/
def majorField (op : Word) : Fin 16 := (op.extractLsb' 12 4).toFin

/-- X = op[11:8] (30_encoding R103). -/
def xField (op : Word) : Fin 16 := (op.extractLsb' 8 4).toFin

/-- Y = op[7:4] (30_encoding R103). -/
def yField (op : Word) : Fin 16 := (op.extractLsb' 4 4).toFin

/-- N = op[3:0] (30_encoding R103). -/
def nField (op : Word) : Fin 16 := (op.extractLsb' 0 4).toFin

/-- NN = op[7:0] (30_encoding R103). -/
def nnField (op : Word) : Byte := op.extractLsb' 0 8

/-- NNN = op[11:0] (30_encoding R103). -/
def nnnField (op : Word) : Addr12 := op.extractLsb' 0 12

/-- The word whose high byte is `hi` and whose low byte is `lo` (30_encoding R100, `hi ++ lo`). -/
def wordOfBytes (hi lo : Byte) : Word := hi ++ lo

/-- The `8xyn` words (30_encoding R105, R108). -/
def decodeAlu (op : Word) : Except DecodeError Instr :=
  let x := xField op
  let y := yField op
  match nField op with
  | 0x0 => .ok (.ldReg x y)
  | 0x1 => .ok (.orReg x y)
  | 0x2 => .ok (.andReg x y)
  | 0x3 => .ok (.xorReg x y)
  | 0x4 => .ok (.addReg x y)
  | 0x5 => .ok (.sub x y)
  | 0x6 => .ok (.shr x y)
  | 0x7 => .ok (.subn x y)
  | 0xE => .ok (.shl x y)
  | _ => .error (.unknown op)

/-- The `Exkk` words (30_encoding R105, R108, R109). -/
def decodeKeySkip (op : Word) : Except DecodeError Instr :=
  if nnField op = 0x9E then .ok (.skp (xField op))
  else if nnField op = 0xA1 then .ok (.sknp (xField op))
  else .error (.unknown op)

/-- The `Fxkk` words (30_encoding R105, R108, R109). -/
def decodeMisc (op : Word) : Except DecodeError Instr :=
  let x := xField op
  if nnField op = 0x07 then .ok (.ldVxDt x)
  else if nnField op = 0x0A then .ok (.ldVxK x)
  else if nnField op = 0x15 then .ok (.ldDtVx x)
  else if nnField op = 0x18 then .ok (.ldStVx x)
  else if nnField op = 0x1E then .ok (.addI x)
  else if nnField op = 0x29 then .ok (.ldF x)
  else if nnField op = 0x33 then .ok (.ldB x)
  else if nnField op = 0x55 then .ok (.ldMemStore x)
  else if nnField op = 0x65 then .ok (.ldMemLoad x)
  else .error (.unknown op)

/-- Decode one 16-bit word (30_encoding R105): CLS and RET before SYS, then by major code. -/
def decodeWord (op : Word) : Except DecodeError Instr :=
  let x := xField op
  let y := yField op
  let nn := nnField op
  let nnn := nnnField op
  match majorField op with
  | 0x0 => if nnn = 0x0E0 then .ok .cls else if nnn = 0x0EE then .ok .ret else .ok (.sys nnn)
  | 0x1 => .ok (.jp nnn)
  | 0x2 => .ok (.call nnn)
  | 0x3 => .ok (.seImm x nn)
  | 0x4 => .ok (.sneImm x nn)
  | 0x5 => if nField op = 0 then .ok (.seReg x y) else .error (.unknown op)
  | 0x6 => .ok (.ldImm x nn)
  | 0x7 => .ok (.addImm x nn)
  | 0x8 => decodeAlu op
  | 0x9 => if nField op = 0 then .ok (.sneReg x y) else .error (.unknown op)
  | 0xA => .ok (.ldI nnn)
  | 0xB => .ok (.jpV0 nnn)
  | 0xC => .ok (.rnd x nn)
  | 0xD => .ok (.drw x y (nField op))
  | 0xE => decodeKeySkip op
  | _ => decodeMisc op -- 0xF, the sixteenth major code

/-- Decode the instruction at the head of a byte stream, big-endian (20_memory R73), with the bytes after it. -/
def decode : List Byte → Except DecodeError (Instr × List Byte)
  | hi :: lo :: rest =>
    match decodeWord (wordOfBytes hi lo) with
    | .ok i => .ok (i, rest)
    | .error e => .error e
  | [_] => .error .truncated
  | [] => .error .truncated

/-- A register number or count as its four bits. -/
def nibble (x : Fin 16) : BitVec 4 := .ofFin x

/-- The `F-NNN` format (30_encoding R103). -/
def wordNNN (major : BitVec 4) (nnn : Addr12) : Word := major ++ nnn

/-- The `F-XNN` and `F-XKK` formats (30_encoding R103). -/
def wordXNN (major : BitVec 4) (x : Fin 16) (nn : Byte) : Word := major ++ nibble x ++ nn

/-- The `F-XYN` and `F-DXYN` formats (30_encoding R103). -/
def wordXYN (major : BitVec 4) (x y n : Fin 16) : Word := major ++ nibble x ++ nibble y ++ nibble n

/-- The word of an instruction (30_encoding R105, the pattern of its row). -/
def encodeWord : Instr → Word
  | .sys nnn => wordNNN 0x0 nnn
  | .cls => 0x00E0
  | .ret => 0x00EE
  | .jp nnn => wordNNN 0x1 nnn
  | .call nnn => wordNNN 0x2 nnn
  | .seImm x nn => wordXNN 0x3 x nn
  | .sneImm x nn => wordXNN 0x4 x nn
  | .seReg x y => wordXYN 0x5 x y 0x0
  | .ldImm x nn => wordXNN 0x6 x nn
  | .addImm x nn => wordXNN 0x7 x nn
  | .ldReg x y => wordXYN 0x8 x y 0x0
  | .orReg x y => wordXYN 0x8 x y 0x1
  | .andReg x y => wordXYN 0x8 x y 0x2
  | .xorReg x y => wordXYN 0x8 x y 0x3
  | .addReg x y => wordXYN 0x8 x y 0x4
  | .sub x y => wordXYN 0x8 x y 0x5
  | .shr x y => wordXYN 0x8 x y 0x6
  | .subn x y => wordXYN 0x8 x y 0x7
  | .shl x y => wordXYN 0x8 x y 0xE
  | .sneReg x y => wordXYN 0x9 x y 0x0
  | .ldI nnn => wordNNN 0xA nnn
  | .jpV0 nnn => wordNNN 0xB nnn
  | .rnd x nn => wordXNN 0xC x nn
  | .drw x y n => wordXYN 0xD x y n
  | .skp x => wordXNN 0xE x 0x9E
  | .sknp x => wordXNN 0xE x 0xA1
  | .ldVxDt x => wordXNN 0xF x 0x07
  | .ldVxK x => wordXNN 0xF x 0x0A
  | .ldDtVx x => wordXNN 0xF x 0x15
  | .ldStVx x => wordXNN 0xF x 0x18
  | .addI x => wordXNN 0xF x 0x1E
  | .ldF x => wordXNN 0xF x 0x29
  | .ldB x => wordXNN 0xF x 0x33
  | .ldMemStore x => wordXNN 0xF x 0x55
  | .ldMemLoad x => wordXNN 0xF x 0x65

/-- The two bytes of a word as memory holds them, the high byte first (20_memory R73). -/
def bytesOfWord (op : Word) : List Byte := [op.extractLsb' 8 8, op.extractLsb' 0 8]

/-- The bytes of an instruction. -/
def encode (i : Instr) : List Byte := bytesOfWord (encodeWord i)

/-- The instruction the decoder reads from the word `w` of `nbits` bits, laid out as memory holds it. The bits above
`nbits` are 0. -/
def decodeTableWord (nbits w : Nat) : Option Instr :=
  match decode (bytesOfWord (.ofNat 16 (w % 2 ^ nbits))) with
  | .ok (i, _) => some i
  | .error _ => none

end Sys2Proof
end

