-- ==== Sys2Proof/Config.lean ====
section
/-! DEFINITION. What the spec fixes as parameters of the core (00_scope R6), its configuration input, and the free
value of the model. The parameters a test could correct (FONT_BASE, FONT_DATA, the selected unknown-opcode policy)
stand in Sys2Proof/Machine/Memory.lean and Sys2Proof/Machine/Execute.lean. -/

namespace Sys2Proof.Config

/-- MEM_SIZE: addresses 0x000-0xFFF (00_scope R6). -/
abbrev memSize : Nat := 0x1000

/-- STACK_DEPTH (00_scope R6). -/
abbrev stackDepth : Nat := 16

/-- PROGRAM_BASE: where `load` writes and where PC stands at reset (00_scope R6). -/
abbrev programBase : Nat := 0x200

/-- PROGRAM_MAX: the longest image `load` accepts (00_scope R6). -/
abbrev programMax : Nat := 3584

/-- FB_W, the frame buffer's width (00_scope R6). -/
abbrev fbWidth : Nat := 64

/-- FB_H, the frame buffer's height (00_scope R6). -/
abbrev fbHeight : Nat := 32

/-- The configuration input UNKNOWN_OPCODE_POLICY, fixed for a run and no part of the state (00_scope R7). -/
inductive UnknownOpcodePolicy where
  | fault
  | noOpAdvance
  deriving DecidableEq, Repr

/-- The random byte of a step whose draw the host has not written down (41_data R252). FREE VALUE: any byte at each
index, with no body, so that nothing can be proved about its value (log 1). -/
opaque randomByte : Nat → Byte

end Sys2Proof.Config
end

