-- ==== Sys2Proof/Machine/State.lean ====
section
/-! DEFINITION. The machine's state (10_state.md), its value after reset (70_reset_and_hazards R500), the faults a step can
raise (60_exceptions R400, R401), and the host's transactions (60_exceptions R440). -/

namespace Sys2Proof.Machine

open Sys2Proof

/-- A transaction of the host with its inputs (60_exceptions R440). -/
inductive Transaction where
  /-- Every piece of state to its reset value (R500). -/
  | reset
  /-- Write a program image at 0x200 (R502, R503). -/
  | load (bytes : List Byte)
  /-- One instruction, with the step's random draw (R112, R252); the keypad state is K. -/
  | step (rnd : Byte)
  /-- The 60 Hz timer countdown (R420). -/
  | tick
  /-- `K[k] <- b` (R431). -/
  | key (k : Key) (b : Bool)
  /-- The frame-buffer export (R430). -/
  | readFB
  /-- The sound output (R433). -/
  | readSound
  deriving DecidableEq, Repr

/-- The frame buffer: rows of pixels, `FB[y][x]`, true means lit (10_state R42). -/
abbrev Grid := Vector (Vector Bool Config.fbWidth) Config.fbHeight

/-- The state. The first nine fields are the spec's whole state (10_state R30-R43); the last two are the model's own. -/
structure State where
  /-- The memory bytes that differ from the reset contents, by rising address (10_state R40, R41; log 6). -/
  mem : List Host.Cell
  /-- V0..VF, VF being also the flag (10_state R30, R31). -/
  V : Vector Byte 16
  /-- The index register (10_state R33). -/
  I : Word
  /-- The program counter (10_state R34). -/
  PC : Word
  /-- The return stack, oldest entry first (10_state R36). -/
  S : List Word
  /-- The delay timer (10_state R37). -/
  DT : Byte
  /-- The sound timer (10_state R38). -/
  ST : Byte
  /-- The frame buffer (10_state R42). -/
  FB : Grid
  /-- The keypad flags, true while a key is held (10_state R43). -/
  K : Vector Bool 16
  /-- MODEL'S OWN (log 2): the transactions the host calls next, in order. When the list is empty the host calls `step`
  with a draw nobody has written down. -/
  host : List Transaction
  /-- MODEL'S OWN (log 1): how many random draws have been taken, the argument of the free value `Config.randomByte`. -/
  drawIndex : Nat
  deriving DecidableEq, Repr

/-- The state after reset (70_reset_and_hazards R500). `mem` lists nothing: every byte is at its reset contents. -/
def State.reset : State where
  mem := []
  V := .replicate 16 0x00
  I := 0x0000
  PC := 0x0200
  S := []
  DT := 0x00
  ST := 0x00
  FB := .replicate _ (.replicate _ false)
  K := .replicate 16 false
  host := []
  drawIndex := 0

/-- The fault records of 60_exceptions R400 and R401: the kind is the constructor, `pc` the PC of the faulting step, `op`
the fetched word, the rest the kind's info. All are the spec's own faults, so each is SAFE; the data-access
`outOfBounds` and `operandRange` are the spec's decisions D16, D13 and D14, which err toward unprovable. -/
inductive Fault where
  /-- Raised by the fetch of any step with PC > 0xFFE, `op` then absent, and by DXYN (N > 0), FX33, FX55 and FX65 when an
  accessed address exceeds 0xFFF; `addr` is the lowest address out of range. Safe. -/
  | outOfBounds (pc : Word) (op : Option Word) (addr : Nat)
  /-- Raised by 2NNN with 16 entries on the stack. Safe. -/
  | stackOverflow (pc : Word) (op : Word)
  /-- Raised by 00EE with an empty stack. Safe. -/
  | stackUnderflow (pc : Word) (op : Word)
  /-- Raised by a word that decodes to nothing, under the policy Fault. Safe. -/
  | unknownOpcode (pc : Word) (op : Word)
  /-- Raised by FX29, EX9E and EXA1 when V[X], here `value`, exceeds 0x0F. Safe. -/
  | operandRange (pc : Word) (op : Word) (value : Byte)
  deriving DecidableEq, Repr

/-- Reasons for giving no meaning. -/
inductive Refusal where
  /-- Raised by `exec`'s arm of an instruction that has no meaning yet; no arm raises it. Safe. -/
  | notModelled (mnemonic : String)
  deriving DecidableEq, Repr

/-- What a step of this machine answers. -/
abbrev Outcome := Host.Outcome State Fault Refusal

end Sys2Proof.Machine
end

