-- ==== Sys2Proof/Machine/Memory.lean ====
section
/-! DEFINITION. Memory (20_memory.md): the reset contents, and reading and writing bytes over the list of the bytes that
differ from them. -/

namespace Sys2Proof.Machine

open Sys2Proof

/-- FONT_BASE (00_scope R6; 10_state R41). -/
def fontBase : Nat := 0x050

/-- FONT_DATA's default, glyph by glyph (10_state R41). UNVERIFIED: the spec takes the bytes from general knowledge
(92_eei_decisions D22; log 7). -/
def fontData : List Byte :=
  [0xF0, 0x90, 0x90, 0x90, 0xF0] ++ [0x20, 0x60, 0x20, 0x20, 0x70] ++ [0xF0, 0x10, 0xF0, 0x80, 0xF0] ++
  [0xF0, 0x10, 0xF0, 0x10, 0xF0] ++ [0x90, 0x90, 0xF0, 0x10, 0x10] ++ [0xF0, 0x80, 0xF0, 0x10, 0xF0] ++
  [0xF0, 0x80, 0xF0, 0x90, 0xF0] ++ [0xF0, 0x10, 0x20, 0x40, 0x40] ++ [0xF0, 0x90, 0xF0, 0x90, 0xF0] ++
  [0xF0, 0x90, 0xF0, 0x10, 0xF0] ++ [0xF0, 0x90, 0xF0, 0x90, 0x90] ++ [0xE0, 0x90, 0xE0, 0x90, 0xE0] ++
  [0xF0, 0x80, 0x80, 0x80, 0xF0] ++ [0xE0, 0x90, 0x90, 0x90, 0xE0] ++ [0xF0, 0x80, 0xF0, 0x80, 0xF0] ++
  [0xF0, 0x80, 0xF0, 0x80, 0x80]

/-- What the byte at `a` holds after reset, and so what an unlisted address reads as: the font table at FONT_BASE, 0x00
elsewhere (10_state R40, R41; 70_reset_and_hazards R500). -/
def resetByte (a : Nat) : Byte :=
  if fontBase ≤ a ∧ a < fontBase + fontData.length then fontData.getD (a - fontBase) 0x00 else 0x00

/-- The byte at address `a` (00_scope R10). The instructions check the range of `a` first (20_memory R75). -/
def Memory.read : List Host.Cell → Nat → Byte
  | [], a => resetByte a
  | (b, v) :: m, a => if b = a then v else Memory.read m a

/-- Put the entry `(a, v)` before the first entry of a higher address. -/
def Memory.insert (a : Nat) (v : Byte) : List Host.Cell → List Host.Cell
  | [] => [(a, v)]
  | (b, w) :: m => if a < b then (a, v) :: (b, w) :: m else (b, w) :: Memory.insert a v m

/-- Store `v` at address `a` (00_scope R10), in canonical form: a byte that equals its reset contents is not listed. -/
def Memory.write (m : List Host.Cell) (a : Nat) (v : Byte) : List Host.Cell :=
  let others := m.filter (fun c => c.1 != a)
  if v = resetByte a then others else Memory.insert a v others

/-- Store bytes at `a`, `a + 1`, … one after the other (20_memory R72). -/
def Memory.writeBytes (m : List Host.Cell) (a : Nat) : List Byte → List Host.Cell
  | [] => m
  | v :: vs => Memory.writeBytes (Memory.write m a v) (a + 1) vs

/-- The canonical form: addresses strictly rising and inside 0x000-0xFFF, no entry equal to the reset contents. -/
abbrev Memory.wf (m : List Host.Cell) : Prop :=
  m.Pairwise (fun c d => c.1 < d.1) ∧ ∀ c ∈ m, c.1 < Config.memSize ∧ c.2 ≠ resetByte c.1

end Sys2Proof.Machine
end

