-- ==== Sys2Proof/Machine/Ops.lean ====
section
/-! DEFINITION. The shared operations over registers, memory, stack, program counter and keypad; raising a fault; the range
check. The core has no trap entry and no return from one (60_exceptions R405): raising a fault gives control to the host
with the record and leaves the state. -/

namespace Sys2Proof.Machine

open Sys2Proof

/-- `V[x]` (00_scope R9). No register is hardwired (10_state R30). -/
def State.reg (s : State) (x : Reg) : Byte := s.V[x]

/-- `V[x] <- v` (00_scope R9). -/
def State.setReg (s : State) (x : Reg) (v : Byte) : State := { s with V := s.V.set x v }

/-- `V[i] <- vs[i]` for each byte of `vs`, from `V[x]` upwards (42_memory_index R265). -/
def State.setRegs (s : State) (x : Nat) : List Byte → State
  | [] => s
  | v :: vs => State.setRegs (s.setReg (Fin.ofNat 16 x) v) (x + 1) vs

/-- VF, the 16th register and the flag (10_state R31). -/
def flagReg : Reg := 15

/-- `I <- v` (10_state R33). -/
def State.setI (s : State) (v : Word) : State := { s with I := v }

/-- `PC <- v` (10_state R34). -/
def State.setPC (s : State) (v : Word) : State := { s with PC := v }

/-- `next`, PC + 2 modulo 0x10000 (00_scope R12). -/
def State.nextPC (s : State) : Word := s.PC + 2

/-- `skip`, PC + 4 modulo 0x10000 (00_scope R12). -/
def State.skipPC (s : State) : Word := s.PC + 4

/-- `PC <- next`, the end of every instruction that does not alter control flow (30_encoding R106). -/
def State.advance (s : State) : State := s.setPC s.nextPC

/-- The stack becomes `S` (10_state R36). -/
def State.setStack (s : State) (S : List Word) : State := { s with S := S }

/-- `DT <- v` (10_state R37). -/
def State.setDT (s : State) (v : Byte) : State := { s with DT := v }

/-- `ST <- v` (10_state R38). -/
def State.setST (s : State) (v : Byte) : State := { s with ST := v }

/-- The frame buffer becomes `g` (10_state R42). -/
def State.setFB (s : State) (g : Grid) : State := { s with FB := g }

/-- `K[k] <- b` (60_exceptions R431). -/
def State.setKey (s : State) (k : Key) (b : Bool) : State := { s with K := s.K.set k b }

/-- The transactions the host calls next become `ts` (log 2). -/
def State.setHost (s : State) (ts : List Transaction) : State := { s with host := ts }

/-- One more random draw has been taken (log 1). -/
def State.countDraw (s : State) : State := { s with drawIndex := s.drawIndex + 1 }

/-- `MemRead(a, 1)` (00_scope R10). -/
def State.byteAt (s : State) (a : Nat) : Byte := Memory.read s.mem a

/-- `MemWrite` of consecutive bytes at rising addresses from `a` (20_memory R72). -/
def State.store (s : State) (a : Nat) (bytes : List Byte) : State := { s with mem := Memory.writeBytes s.mem a bytes }

/-- `keys[k]` (00_scope R12; 60_exceptions R431). -/
def State.key (s : State) (k : Key) : Bool := s.K[k]

/-- `rnd`, the step's random draw (41_data R252): the byte the host's `step` transaction carries, or, when no
transaction is written down, the free value `Config.randomByte`. -/
def State.rnd (s : State) : Byte :=
  match s.host with
  | .step r :: _ => r
  | _ => Config.randomByte s.drawIndex

/-- `FB[y][x]` (00_scope R9). -/
def Grid.pixel (g : Grid) (x : Col) (y : Row) : Bool := g[y][x]

/-- `FB[y][x] <- NOT FB[y][x]` (43_graphics R291). -/
def Grid.flip (g : Grid) (x : Col) (y : Row) : Grid := g.set y (g[y].set x (!g[y][x]))

/-- `pc` of a fault's record (60_exceptions R401). -/
def Fault.pc : Fault → Word
  | .outOfBounds pc _ _ => pc
  | .stackOverflow pc _ => pc
  | .stackUnderflow pc _ => pc
  | .unknownOpcode pc _ => pc
  | .operandRange pc _ _ => pc

/-- `op` of a fault's record, absent for a fetch fault (60_exceptions R401). -/
def Fault.op : Fault → Option Word
  | .outOfBounds _ op _ => op
  | .stackOverflow _ op => some op
  | .stackUnderflow _ op => some op
  | .unknownOpcode _ op => some op
  | .operandRange _ op _ => some op

/-- `raise F(info)` (00_scope R11): the step ends with the fault record; no state changes (60_exceptions R401, R402). -/
def raise (f : Fault) : Outcome := .fault f

/-- `wait` (00_scope R11): the step ends with status Waiting and no state change (44_timers_input R332). -/
def wait (s : State) : Outcome := .next s

/-- `check(I, n)`, then `k` (42_memory_index R266): OutOfBounds(max(I, 0x1000)) when one of the `n` bytes at I has an
address above 0xFFF. With `n = 0` no byte is accessed and nothing is checked (43_graphics R291, R295). -/
def checkRange (op : Word) (n : Nat) (s : State) (k : Outcome) : Outcome :=
  if 0 < n ∧ Config.memSize < s.I.toNat + n then raise (.outOfBounds s.PC (some op) (max s.I.toNat Config.memSize)) else k

/-- `PC <- skip` if `c`, else `PC <- next` (30_encoding R106). -/
def skipIf (c : Bool) (s : State) : Outcome := .next (s.setPC (if c then s.skipPC else s.nextPC))

end Sys2Proof.Machine
end

