-- ==== Sys2Proof/Machine/Operands.lean ====
section
/-! DEFINITION. The operand forms: 12-bit addresses, digits and key numbers in a register, I-relative bytes, glyphs. -/

namespace Sys2Proof.Machine

open Sys2Proof

/-- `zext_16(NNN)` (30_encoding R104). -/
def addrOperand (nnn : Addr12) : Word := nnn.setWidth 16

/-- `zext_16(V[X])` (40_control_flow R206; 42_memory_index R261). -/
def zext16 (v : Byte) : Word := v.setWidth 16

/-- A digit or key number held in a register, then `k`: OperandRange(v) when `v` exceeds 0x0F (42_memory_index R262;
44_timers_input R323, R324). -/
def nibbleOperand (op : Word) (v : Byte) (s : State) (k : Fin 16 → Outcome) : Outcome :=
  if h : v.toNat ≤ 0x0F then k ⟨v.toNat, Nat.lt_succ_of_le h⟩ else raise (.operandRange s.PC op v)

/-- The address of byte `k` of an I-relative access, an unbounded integer (20_memory R76). -/
def State.addrI (s : State) (k : Nat) : Nat := s.I.toNat + k

/-- The `n` bytes at I, at rising addresses (42_memory_index R265; 43_graphics R291). -/
def State.bytesAtI (s : State) (n : Nat) : List Byte := (List.range n).map (fun k => s.byteAt (s.addrI k))

/-- `V[0]..V[x]` (42_memory_index R264). -/
def State.regsUpTo (s : State) (x : Reg) : List Byte := s.V.toList.take (x.val + 1)

/-- The address of the glyph of digit `d` (42_memory_index R262). -/
def glyphAddr (d : Fin 16) : Word := .ofNat 16 (fontBase + 5 * d.val)

/-- The decimal digits of a byte: hundreds, tens, ones (42_memory_index R263). -/
def bcdDigits (v : Byte) : List Byte := [v / 100, v / 10 % 10, v % 10]

/-- The lowest-numbered key that is held (44_timers_input R331). -/
def State.firstKey (s : State) : Option Key := (List.finRange 16).find? s.key

/-- A key number as a register value (44_timers_input R330). -/
def keyByte (k : Key) : Byte := .ofNat 8 k.val

end Sys2Proof.Machine
end

