-- ==== Sys2Proof/Machine/ControlFlow.lean ====
section
/-! DEFINITION. The control flow instructions (40_control_flow.md). -/

namespace Sys2Proof.Machine

open Sys2Proof

/-- SYS NNN: no effect but `PC <- next`; NNN is ignored (R201). -/
def execSys (_nnn : Addr12) (s : State) : Outcome := .next s.advance

/-- RET: pop into PC, or StackUnderflow (R203). -/
def execRet (s : State) : Outcome :=
  match s.S.getLast? with
  | none => raise (.stackUnderflow s.PC (encodeWord .ret))
  | some v => .next ((s.setStack s.S.dropLast).setPC v)

/-- JP NNN (R204). -/
def execJp (nnn : Addr12) (s : State) : Outcome := .next (s.setPC (addrOperand nnn))

/-- CALL NNN: push `next` and jump, or StackOverflow when the stack holds 16 entries (R205; for more, which no run
reaches, see log 8). -/
def execCall (nnn : Addr12) (s : State) : Outcome :=
  if Config.stackDepth ≤ s.S.length then raise (.stackOverflow s.PC (encodeWord (.call nnn)))
  else .next ((s.setStack (s.S ++ [s.nextPC])).setPC (addrOperand nnn))

/-- JP V0, NNN: the 16-bit sum, always V0 (R206). -/
def execJpV0 (nnn : Addr12) (s : State) : Outcome := .next (s.setPC (addrOperand nnn + zext16 (s.reg 0)))

/-- SE VX, NN (R207). -/
def execSeImm (x : Reg) (nn : Byte) (s : State) : Outcome := skipIf (s.reg x == nn) s

/-- SNE VX, NN (R208). -/
def execSneImm (x : Reg) (nn : Byte) (s : State) : Outcome := skipIf (s.reg x != nn) s

/-- SE VX, VY (R209). -/
def execSeReg (x y : Reg) (s : State) : Outcome := skipIf (s.reg x == s.reg y) s

/-- SNE VX, VY (R210). -/
def execSneReg (x y : Reg) (s : State) : Outcome := skipIf (s.reg x != s.reg y) s

end Sys2Proof.Machine
end

