-- ==== Sys2Proof/Machine/Flags.lean ====
section
/-! DEFINITION. The flag computations (41_data R250; 43_graphics R294). The only flag is VF (10_state R31). -/

namespace Sys2Proof.Machine

open Sys2Proof

/-- A flag as VF holds it: 0x01 or 0x00 (41_data R236). -/
def flagByte (b : Bool) : Byte := if b then 0x01 else 0x00

/-- The carry of an addition: `a + b > 255` (41_data R250). -/
def carry (a b : Byte) : Bool := 255 < a.toNat + b.toNat

/-- No borrow in `a - b`: `a >= b`, equality included (41_data R250; 90_conflicts C6). -/
def notBorrow (a b : Byte) : Bool := b.toNat ≤ a.toNat

/-- The bit a right shift pushes out (41_data R238). -/
def lowBit (a : Byte) : Bool := a.getLsbD 0

/-- The bit a left shift pushes out (41_data R240). -/
def highBit (a : Byte) : Bool := a.getLsbD 7

/-- `V[x] <- v`, then `VF <- flag`, then `PC <- next`: the flag is written last, so for X = F it is what VF holds
(41_data R250). -/
def resultAndFlag (x : Reg) (v : Byte) (flag : Bool) (s : State) : Outcome :=
  .next ((s.setReg x v).setReg flagReg (flagByte flag)).advance

/-- `V[x] <- v`, then `PC <- next`: no flag is written (41_data R230-R235, R251). -/
def resultOnly (x : Reg) (v : Byte) (s : State) : Outcome := .next (s.setReg x v).advance

end Sys2Proof.Machine
end

