-- ==== Sys2Proof/Machine/Data.lean ====
section
/-! DEFINITION. The data instructions: load, arithmetic, logic, shift, random (41_data.md). -/

namespace Sys2Proof.Machine

open Sys2Proof

/-- LD VX, NN (R230). -/
def execLdImm (x : Reg) (nn : Byte) (s : State) : Outcome := resultOnly x nn s

/-- ADD VX, NN: modulo 256, no flag (R231). -/
def execAddImm (x : Reg) (nn : Byte) (s : State) : Outcome := resultOnly x (s.reg x + nn) s

/-- LD VX, VY (R232). -/
def execLdReg (x y : Reg) (s : State) : Outcome := resultOnly x (s.reg y) s

/-- OR VX, VY (R233). -/
def execOr (x y : Reg) (s : State) : Outcome := resultOnly x (s.reg x ||| s.reg y) s

/-- AND VX, VY (R234). -/
def execAnd (x y : Reg) (s : State) : Outcome := resultOnly x (s.reg x &&& s.reg y) s

/-- XOR VX, VY (R235). -/
def execXor (x y : Reg) (s : State) : Outcome := resultOnly x (s.reg x ^^^ s.reg y) s

/-- ADD VX, VY: VF is the carry (R236). -/
def execAddReg (x y : Reg) (s : State) : Outcome := resultAndFlag x (s.reg x + s.reg y) (carry (s.reg x) (s.reg y)) s

/-- SUB VX, VY: V[X] - V[Y], VF is NOT borrow (R237). -/
def execSub (x y : Reg) (s : State) : Outcome := resultAndFlag x (s.reg x - s.reg y) (notBorrow (s.reg x) (s.reg y)) s

/-- SHR VX: Y is ignored, VF is the bit shifted out (R238). -/
def execShr (x _y : Reg) (s : State) : Outcome := resultAndFlag x (s.reg x >>> 1) (lowBit (s.reg x)) s

/-- SUBN VX, VY: V[Y] - V[X], VF is NOT borrow (R239). -/
def execSubn (x y : Reg) (s : State) : Outcome := resultAndFlag x (s.reg y - s.reg x) (notBorrow (s.reg y) (s.reg x)) s

/-- SHL VX: Y is ignored, VF is the bit shifted out (R240). -/
def execShl (x _y : Reg) (s : State) : Outcome := resultAndFlag x (s.reg x <<< 1) (highBit (s.reg x)) s

/-- RND VX, NN: the step's draw AND the mask (R251, R252). -/
def execRnd (x : Reg) (nn : Byte) (s : State) : Outcome := resultOnly x (s.rnd &&& nn) s.countDraw

end Sys2Proof.Machine
end

