-- ==== Sys2Proof/Machine/Graphics.lean ====
section
/-! DEFINITION. The graphics instructions and the frame-buffer XOR-write unit (43_graphics.md). -/

namespace Sys2Proof.Machine

open Sys2Proof

/-- The frame buffer with every pixel false (R290). -/
def clearGrid : Grid := .replicate _ (.replicate _ false)

/-- CLS (R290). -/
def execCls (s : State) : Outcome := .next (s.setFB clearGrid).advance

/-- The pixels that row `r` of a sprite at `(x0, y0)` inverts: column `c` where bit `7 - c` of its byte is 1, both
coordinates wrapped (R291, R292, R293). -/
def spriteRow (x0 y0 r : Nat) (b : Byte) : List (Col × Row) :=
  ((List.range 8).filter (fun c => b.getLsbD (7 - c))).map (fun c => (Fin.ofNat 64 (x0 + c), Fin.ofNat 32 (y0 + r)))

/-- The pixels that a sprite inverts, row `r` of it being byte `r` (R291, R292). -/
def spritePixels (x0 y0 : Nat) (bytes : List Byte) : List (Col × Row) :=
  (bytes.zipIdx).flatMap (fun p => spriteRow x0 y0 p.2 p.1)

/-- Invert one pixel; a pixel that was true makes a collision (R291, R294). -/
def xorPixel (acc : Grid × Bool) (p : Col × Row) : Grid × Bool :=
  (acc.1.flip p.1 p.2, acc.2 || acc.1.pixel p.1 p.2)

/-- The XOR-write unit: invert the pixels one by one and report whether one was erased (R291, R294). -/
def xorWrite (g : Grid) (ps : List (Col × Row)) : Grid × Bool := ps.foldl xorPixel (g, false)

/-- DRW VX, VY, N: the coordinates are read before VF is written; VF is the collision (R291-R295). -/
def execDrw (x y : Reg) (n : RowCount) (s : State) : Outcome :=
  checkRange (encodeWord (.drw x y n)) n.val s
    (let drawn := xorWrite s.FB (spritePixels (s.reg x).toNat (s.reg y).toNat (s.bytesAtI n.val))
     .next ((s.setFB drawn.1).setReg flagReg (flagByte drawn.2)).advance)

end Sys2Proof.Machine
end

