-- ==== Sys2Proof/Machine/MemoryIndex.lean ====
section
/-! DEFINITION. The memory and index instructions (42_memory_index.md). No access changes I. -/

namespace Sys2Proof.Machine

open Sys2Proof

/-- LD I, NNN (R260). -/
def execLdI (nnn : Addr12) (s : State) : Outcome := .next (s.setI (addrOperand nnn)).advance

/-- ADD I, VX: modulo 0x10000, no flag (R261). -/
def execAddI (x : Reg) (s : State) : Outcome := .next (s.setI (s.I + zext16 (s.reg x))).advance

/-- LD F, VX: the glyph's address, or OperandRange (R262). -/
def execLdF (x : Reg) (s : State) : Outcome :=
  nibbleOperand (encodeWord (.ldF x)) (s.reg x) s fun d => .next (s.setI (glyphAddr d)).advance

/-- LD B, VX: hundreds, tens and ones at I, I+1, I+2 (R263). -/
def execLdB (x : Reg) (s : State) : Outcome :=
  checkRange (encodeWord (.ldB x)) 3 s (.next (s.store s.I.toNat (bcdDigits (s.reg x))).advance)

/-- LD [I], VX: V0..VX to memory at I (R264). -/
def execLdMemStore (x : Reg) (s : State) : Outcome :=
  checkRange (encodeWord (.ldMemStore x)) (x.val + 1) s (.next (s.store s.I.toNat (s.regsUpTo x)).advance)

/-- LD VX, [I]: V0..VX from memory at I (R265). -/
def execLdMemLoad (x : Reg) (s : State) : Outcome :=
  checkRange (encodeWord (.ldMemLoad x)) (x.val + 1) s (.next (s.setRegs 0 (s.bytesAtI (x.val + 1))).advance)

end Sys2Proof.Machine
end

