-- ==== Sys2Proof/Machine/TimersInput.lean ====
section
/-! DEFINITION. The timer and input instructions (44_timers_input.md). -/

namespace Sys2Proof.Machine

open Sys2Proof

/-- LD VX, DT (R320). -/
def execLdVxDt (x : Reg) (s : State) : Outcome := .next (s.setReg x s.DT).advance

/-- LD DT, VX (R321). -/
def execLdDtVx (x : Reg) (s : State) : Outcome := .next (s.setDT (s.reg x)).advance

/-- LD ST, VX (R322). -/
def execLdStVx (x : Reg) (s : State) : Outcome := .next (s.setST (s.reg x)).advance

/-- SKP VX: skip if the key numbered V[X] is held, or OperandRange (R323). -/
def execSkp (x : Reg) (s : State) : Outcome :=
  nibbleOperand (encodeWord (.skp x)) (s.reg x) s fun k => skipIf (s.key k) s

/-- SKNP VX: skip if the key numbered V[X] is not held, or OperandRange (R324). -/
def execSknp (x : Reg) (s : State) : Outcome :=
  nibbleOperand (encodeWord (.sknp x)) (s.reg x) s fun k => skipIf (!s.key k) s

/-- LD VX, K: the lowest key held, or wait (R330, R331, R332). -/
def execLdVxK (x : Reg) (s : State) : Outcome :=
  match s.firstKey with
  | some k => .next (s.setReg x (keyByte k)).advance
  | none => wait s

end Sys2Proof.Machine
end

