-- ==== Sys2Proof/Machine/Execute.lean ====
section
/-! DEFINITION. Fetch, decode, execute: the `step` transaction of one instruction (30_encoding R112), its unknown words
(44_timers_input R340) and its status (60_exceptions R441). -/

namespace Sys2Proof.Machine

open Sys2Proof

/-- The policy of this machine: the documented default of UNKNOWN_OPCODE_POLICY (00_scope R6; 92_eei_decisions D4; log 3).
Every definition below takes the policy as an argument, so that the other one is modelled as well. -/
def unknownOpcodePolicy : Config.UnknownOpcodePolicy := .fault

/-- The opcode at PC, big-endian (30_encoding R100; 20_memory R73). -/
def State.fetchWord (s : State) : Word := wordOfBytes (s.byteAt s.PC.toNat) (s.byteAt (s.PC.toNat + 1))

/-- The lower of PC and PC + 1 that exceeds 0xFFF, for a PC above 0xFFE (30_encoding R101). -/
def State.fetchFaultAddr (s : State) : Nat := if Config.memSize ≤ s.PC.toNat then s.PC.toNat else s.PC.toNat + 1

/-- What an unknown word does (44_timers_input R340). -/
def unknownWord (p : Config.UnknownOpcodePolicy) (op : Word) (s : State) : Outcome :=
  match p with
  | .fault => raise (.unknownOpcode s.PC op)
  | .noOpAdvance => .next s.advance

/-- One instruction (30_encoding R112): the fetch fault first, then decode, then the instruction (60_exceptions R404). -/
def cpuStep (p : Config.UnknownOpcodePolicy) (s : State) : Outcome :=
  if Config.memSize < s.PC.toNat + 2 then raise (.outOfBounds s.PC none s.fetchFaultAddr)
  else
    match decodeWord s.fetchWord with
    | .ok i => exec i s
    | .error _ => unknownWord p s.fetchWord s

/-- The instruction at PC is FX0A and no key is held: the step waits (44_timers_input R332). -/
def State.waits (s : State) : Bool :=
  match decodeWord s.fetchWord with
  | .ok (.ldVxK _) => s.firstKey.isNone
  | _ => false

/-- The status of a step (60_exceptions R441): an output, no part of the state (10_state R44). -/
inductive Status where
  | executed
  | waiting
  | fault (f : Fault)
  deriving DecidableEq, Repr

/-- The status that the step transaction at `s` returns (60_exceptions R441). No instruction is refused, so the last arm
is a step that ends in a next state. -/
def stepStatus (p : Config.UnknownOpcodePolicy) (s : State) : Status :=
  match cpuStep p s with
  | .fault f => .fault f
  | _ => if s.waits then .waiting else .executed

end Sys2Proof.Machine
end

