-- ==== Sys2Proof/Machine/Transactions.lean ====
section
/-! DEFINITION. The host's transactions (60_exceptions R440): reset, load, step, tick, key, and the read-outs. -/

namespace Sys2Proof.Machine

open Sys2Proof

/-- One count down to the floor 0 (60_exceptions R420). -/
def countDown (v : Byte) : Byte := if v = 0 then 0 else v - 1

/-- The `tick` transaction: each timer on its own value (60_exceptions R420). -/
def tick (s : State) : State := (s.setDT (countDown s.DT)).setST (countDown s.ST)

/-- The `reset` transaction: every piece of the spec's state to its reset value (70_reset_and_hazards R500). What the
host calls next, and how many draws it has made, are no state of the core (log 2). -/
def resetCore (s : State) : State := { State.reset with host := s.host, drawIndex := s.drawIndex }

/-- Why a load fails (70_reset_and_hazards R503). A load error, not a fault of a step (60_exceptions R400). -/
inductive LoadError where
  | capacityExceeded
  deriving DecidableEq, Repr

/-- The `load` transaction: the bytes from 0x200 on, or CapacityExceeded and nothing written (70_reset_and_hazards R502,
R503). -/
def loadImage (bytes : List Byte) (s : State) : Except LoadError State :=
  if Config.programMax < bytes.length then .error .capacityExceeded else .ok (s.store Config.programBase bytes)

/-- The frame-buffer export: 64x32 booleans, row-major (60_exceptions R430; 10_state R42). -/
def State.exportFB (s : State) : List Bool := s.FB.toList.flatMap Vector.toList

/-- The sound output, `ST != 0` (10_state R39; 60_exceptions R433). -/
def State.sound (s : State) : Bool := s.ST != 0

/-- The host's remaining transactions become `rest`. -/
def popHost (rest : List Transaction) : Outcome → Outcome
  | .next s => .next (s.setHost rest)
  | .fault f => .fault f
  | .refused r => .refused r

/-- The next transaction of the host, applied whole (60_exceptions R442). With no transaction written down it is `step`
with a free draw (log 2). A `step` reads its draw from the head of `host` (`State.rnd`). -/
def hostStep (p : Config.UnknownOpcodePolicy) (s : State) : Outcome :=
  match s.host with
  | [] => cpuStep p s
  | .step _ :: rest => popHost rest (cpuStep p s)
  | .reset :: rest => .next ((resetCore s).setHost rest)
  | .load bytes :: rest =>
    match loadImage bytes s with
    | .ok t => .next (t.setHost rest)
    | .error _ => .next (s.setHost rest)
  | .tick :: rest => .next ((tick s).setHost rest)
  | .key k b :: rest => .next ((s.setKey k b).setHost rest)
  | .readFB :: rest => .next (s.setHost rest)
  | .readSound :: rest => .next (s.setHost rest)

/-- What a transaction answers to the host (60_exceptions R440, last column). -/
inductive Response where
  | none
  | loadOk
  | loadFailed (e : LoadError)
  | status (st : Status)
  | grid (pixels : List Bool)
  | sound (on : Bool)
  deriving DecidableEq, Repr

/-- The answer of the next transaction (60_exceptions R440). -/
def response (p : Config.UnknownOpcodePolicy) (s : State) : Response :=
  match s.host with
  | [] => .status (stepStatus p s)
  | .step _ :: _ => .status (stepStatus p s)
  | .reset :: _ => .none
  | .load bytes :: _ =>
    match loadImage bytes s with
    | .ok _ => .loadOk
    | .error e => .loadFailed e
  | .tick :: _ => .none
  | .key _ _ :: _ => .none
  | .readFB :: _ => .grid s.exportFB
  | .readSound :: _ => .sound s.sound

/-- `s` with the bytes of the word `op` at PC and the host about to call `step`, so that the very next step runs that
word. At a PC that fetches nothing no byte is written (log 5). -/
def State.placeWord (s : State) (op : Word) : State :=
  if Config.memSize < s.PC.toNat + 2 then s.setHost [] else (s.store s.PC.toNat (bytesOfWord op)).setHost []

end Sys2Proof.Machine
end

