-- ==== Sys2Proof/Machine/Step.lean ====
section
/-! DEFINITION. One step of the machine: one transaction of the host under the documented default policy. -/

namespace Sys2Proof.Machine

open Sys2Proof

/-- The next transaction of the host (60_exceptions R440, R442); with none written down, one instruction (30_encoding
R112). -/
def step (s : State) : Host.Outcome State Fault Refusal := hostStep unknownOpcodePolicy s

/-- `s` with the instruction word `w` of `nbits` bits placed where `step` fetches next (log 5). -/
def State.withFetchWord (s : State) (nbits w : Nat) : State := s.placeWord (.ofNat 16 (w % 2 ^ nbits))

end Sys2Proof.Machine
end

