-- ==== Sys2Proof/Safety.lean ====
section
/-! DEFINITION. The terms claims use: the state's invariant, which parts a step leaves alone, when an instruction faults,
and what a safe run is. -/

namespace Sys2Proof.Safety

open Sys2Proof Sys2Proof.Machine

/-- The invariant of every reachable state: memory in canonical form inside 0x000-0xFFF, at most 16 stack entries
(10_state R36, R46), each a return address of at most 0x1000, and a PC of at most 0x10FE (30_encoding R107). The sizes of
memory's other invariants (V, FB, K, timers) are in the types. -/
abbrev Inv (s : State) : Prop :=
  Memory.wf s.mem ∧ s.S.length ≤ Config.stackDepth ∧ (∀ v ∈ s.S, v.toNat ≤ 0x1000) ∧ s.PC.toNat ≤ 0x10FE

/-- A part of the state. -/
inductive Part where
  | mem | V | I | PC | S | DT | ST | FB | K | host | drawIndex
  deriving DecidableEq, Repr

/-- `s` and `t` hold the same in one part, seen through the reads of that part. -/
def Agree (s t : State) : Part → Prop
  | .mem => ∀ a, t.byteAt a = s.byteAt a
  | .V => ∀ r, t.reg r = s.reg r
  | .I => t.I = s.I
  | .PC => t.PC = s.PC
  | .S => t.S = s.S
  | .DT => t.DT = s.DT
  | .ST => t.ST = s.ST
  | .FB => ∀ x y, t.FB.pixel x y = s.FB.pixel x y
  | .K => ∀ k, t.key k = s.key k
  | .host => t.host = s.host
  | .drawIndex => t.drawIndex = s.drawIndex

/-- `t` differs from `s` in the listed parts at most. -/
def OnlyChanges (ps : List Part) (s t : State) : Prop := ∀ p, p ∉ ps → Agree s t p

/-- Every register but the listed ones is as before. -/
def RegsExcept (rs : List Reg) (s t : State) : Prop := ∀ r, r ∉ rs → t.reg r = s.reg r

/-- Every byte of memory outside the `n` bytes from `a` on is as before. -/
def BytesExcept (a n : Nat) (s t : State) : Prop := ∀ b, (b < a ∨ a + n ≤ b) → t.byteAt b = s.byteAt b

/-- The fault of an instruction at `s`, by the table of 60_exceptions R400 and the records of R401; none where the
instruction completes or waits. -/
def faultOf (i : Instr) (s : State) : Option Fault :=
  let op := encodeWord i
  let range (n : Nat) : Option Fault :=
    if s.I.toNat + n ≤ 0x1000 then none
    else some (.outOfBounds s.PC (some op) (if s.I.toNat ≤ 0x1000 then 0x1000 else s.I.toNat))
  let digit (x : Reg) : Option Fault := if s.reg x ≤ 0x0F then none else some (.operandRange s.PC op (s.reg x))
  match i with
  | .call _ => if s.S.length < 16 then none else some (.stackOverflow s.PC op)
  | .ret => if s.S = [] then some (.stackUnderflow s.PC op) else none
  | .drw _ _ n => if n = 0 then none else range n.val
  | .ldB _ => range 3
  | .ldMemStore x => range (x.val + 1)
  | .ldMemLoad x => range (x.val + 1)
  | .ldF x => digit x
  | .skp x => digit x
  | .sknp x => digit x
  | .sys _ | .cls | .jp _ | .seImm _ _ | .sneImm _ _ | .seReg _ _ | .ldImm _ _ | .addImm _ _ | .ldReg _ _
  | .orReg _ _ | .andReg _ _ | .xorReg _ _ | .addReg _ _ | .sub _ _ | .shr _ _ | .subn _ _ | .shl _ _ | .sneReg _ _
  | .ldI _ | .jpV0 _ | .rnd _ _ | .ldVxDt _ | .ldVxK _ | .ldDtVx _ | .ldStVx _ | .addI _ => none

/-- The word of `i` is the number `w`, and that word decodes to `i`: the Encoding line of an instruction's rule. -/
def HasWord (i : Instr) (w : Nat) : Prop := (encodeWord i).toNat = w ∧ decodeWord (encodeWord i) = .ok i

/-- The registers that an instruction writes, by the complete list of 10_state R32. -/
def writtenRegs : Instr → List Reg
  | .ldImm x _ | .addImm x _ | .ldReg x _ | .orReg x _ | .andReg x _ | .xorReg x _ | .rnd x _ | .ldVxDt x | .ldVxK x => [x]
  | .addReg x _ | .sub x _ | .shr x _ | .subn x _ | .shl x _ => [x, 15]
  | .drw _ _ _ => [15]
  | .ldMemLoad x => (List.finRange 16).filter (fun r => r ≤ x)
  | .sys _ | .cls | .ret | .jp _ | .call _ | .seImm _ _ | .sneImm _ _ | .seReg _ _ | .sneReg _ _ | .ldI _ | .jpV0 _
  | .skp _ | .sknp _ | .ldDtVx _ | .ldStVx _ | .addI _ | .ldF _ | .ldB _ | .ldMemStore _ => []

/-- The parts of the state that an instruction writes (10_state R32-R43): CLS and DRW the frame buffer, CALL and RET the
stack, FX33 and FX55 memory, FX15 and FX18 the timers, ANNN, FX1E and FX29 the index register; nothing writes K. -/
def writtenParts : Instr → List Part
  | .sys _ | .jp _ | .seImm _ _ | .sneImm _ _ | .seReg _ _ | .sneReg _ _ | .jpV0 _ | .skp _ | .sknp _ => [.PC]
  | .ldImm _ _ | .addImm _ _ | .ldReg _ _ | .orReg _ _ | .andReg _ _ | .xorReg _ _ | .addReg _ _ | .sub _ _ | .shr _ _
  | .subn _ _ | .shl _ _ | .ldVxDt _ | .ldVxK _ | .ldMemLoad _ => [.V, .PC]
  | .rnd _ _ => [.V, .PC, .drawIndex]
  | .cls => [.FB, .PC]
  | .drw _ _ _ => [.FB, .V, .PC]
  | .ret | .call _ => [.S, .PC]
  | .ldI _ | .addI _ | .ldF _ => [.I, .PC]
  | .ldDtVx _ => [.DT, .PC]
  | .ldStVx _ => [.ST, .PC]
  | .ldB _ | .ldMemStore _ => [.mem, .PC]

/-- The sprite of `n` bytes at I, drawn at (V[x], V[y]), has a 1 bit for the pixel `(px, py)`: byte `r`, bit `7 - c`, at
column (V[x] + c) mod 64 and row (V[y] + r) mod 32 (43_graphics R291-R293). -/
def SpriteCovers (s : State) (x y : Reg) (n : Nat) (px : Col) (py : Row) : Prop :=
  ∃ r c, r < n ∧ c < 8 ∧ (s.byteAt (s.I.toNat + r)).getLsbD (7 - c) = true ∧
    px.val = ((s.reg x).toNat + c) % 64 ∧ py.val = ((s.reg y).toNat + r) % 32

/-- A step that does not fault (60_exceptions R403). -/
def SafeStep (s : State) : Prop := ∃ t, step s = .next t

/-- `n` steps without a fault; a claim about a program takes this as its premise (60_exceptions R403). -/
def SafeRun : Nat → State → Prop
  | 0, _ => True
  | n + 1, s => ∃ t, step s = .next t ∧ SafeRun n t

/-- A run from `s` to `t`, with no reset in it, that keeps more than `d` entries on the stack at every state of it
(40_control_flow R211: the stack has not fallen below the depth it had just after a CALL). -/
inductive DeepRun (d : Nat) : State → State → Prop where
  | refl (s : State) : d < s.S.length → DeepRun d s s
  | next (s t u : State) : DeepRun d s t → t.host.head? ≠ some .reset → step t = .next u → d < u.S.length → DeepRun d s u

end Sys2Proof.Safety
end

