-- ==== Sys2Proof/Certificates/Slice0/Obligations.lean ====
section
/-! DEFINITION. The statements for the provers. Each follows numbered rules of spec/ (its entry in OBLIGATIONS.json cites
them); a clause that rests on a choice of the model says so. The words that `HasWord` names are those of 30_encoding R105,
which the spec itself takes from general knowledge (92_eei_decisions D2; log 9). -/

open Sys2Proof Sys2Proof.Machine Sys2Proof.Safety

/-! ### Encoding -/

/-- A few words, written out from the patterns of 30_encoding R105, decode to their instructions. -/
def Obligations.SampleWordsDecode : Prop :=
  decodeWord 0x00E0 = .ok .cls ∧ decodeWord 0x00EE = .ok .ret ∧ decodeWord 0x0123 = .ok (.sys 0x123) ∧
  decodeWord 0x2ABC = .ok (.call 0xABC) ∧ decodeWord 0x8AB4 = .ok (.addReg 0xA 0xB) ∧
  decodeWord 0xD125 = .ok (.drw 1 2 5) ∧ decodeWord 0xE4A1 = .ok (.sknp 4) ∧ decodeWord 0xFA33 = .ok (.ldB 0xA) ∧
  decodeWord 0x5121 = .error (.unknown 0x5121)

/-- Decoding the bytes of a well-formed instruction gives it back, whatever bytes follow. -/
def Obligations.DecodeOfEncodeIsIdentity : Prop :=
  ∀ (i : Instr) (rest : List Byte), WellFormed i → decode (encode i ++ rest) = .ok (i, rest)

/-- A word that decodes at all decodes to a well-formed instruction whose word it is, so no two words share one. -/
def Obligations.EncodeOfDecodeIsIdentity : Prop :=
  ∀ (op : Word) (i : Instr), decodeWord op = .ok i → WellFormed i ∧ encodeWord i = op

/-- Decode is total, and the unknown words are exactly those of 30_encoding R108. -/
def Obligations.UnknownWordsAreThoseListed : Prop :=
  ∀ op : Word,
    let major := op.toNat / 0x1000
    let n := op.toNat % 0x10
    let kk := op.toNat % 0x100
    ((∃ i, decodeWord op = .ok i) ∨ decodeWord op = .error (.unknown op)) ∧
    (decodeWord op = .error (.unknown op) ↔
      (major = 0x5 ∧ n ≠ 0) ∨ (major = 0x9 ∧ n ≠ 0) ∨
      (major = 0x8 ∧ n ∈ [0x8, 0x9, 0xA, 0xB, 0xC, 0xD, 0xF]) ∨
      (major = 0xE ∧ kk ∉ [0x9E, 0xA1]) ∨
      (major = 0xF ∧ kk ∉ [0x07, 0x0A, 0x15, 0x18, 0x1E, 0x29, 0x33, 0x55, 0x65]))

/-! ### The step -/

/-- When the two bytes at PC decode to `i`, a step whose draw is not written down is `exec i`. -/
def Obligations.StepRunsDecodedInstruction : Prop :=
  ∀ (s : State) (i : Instr), s.host = [] → s.PC.toNat ≤ 0xFFE →
    decode [s.byteAt s.PC.toNat, s.byteAt (s.PC.toNat + 1)] = .ok (i, []) → step s = exec i s

/-- When the host calls `step` with the draw `r`, the step is `exec i` with `rnd = r`, and the host goes on with its next
transaction. The list of transactions is the model's own field (log 2). -/
def Obligations.StepTransactionRunsWithItsDraw : Prop :=
  ∀ (s : State) (i : Instr) (r : Byte) (rest : List Transaction), s.host = .step r :: rest → s.PC.toNat ≤ 0xFFE →
    decode [s.byteAt s.PC.toNat, s.byteAt (s.PC.toNat + 1)] = .ok (i, []) →
    s.rnd = r ∧ (∀ t, exec i s = .next t → step s = .next (t.setHost rest)) ∧
    (∀ f, exec i s = .fault f → step s = .fault f)

/-- A PC above 0xFFE raises OutOfBounds with the lowest address out of range and no opcode; a lower PC never does. -/
def Obligations.FetchBeyondMemoryFaults : Prop :=
  ∀ (p : Config.UnknownOpcodePolicy) (s : State),
    (0xFFE < s.PC.toNat →
      cpuStep p s = .fault (.outOfBounds s.PC none (if s.PC.toNat = 0xFFF then 0x1000 else s.PC.toNat))) ∧
    (s.PC.toNat ≤ 0xFFE → ∀ pc a, cpuStep p s ≠ .fault (.outOfBounds pc none a))

/-- An unknown word raises UnknownOpcode under the policy Fault and is a no-op under NoOpAdvance; the machine's own
policy is the documented default, Fault. -/
def Obligations.UnknownWordFollowsPolicy : Prop :=
  ∀ (s : State), s.PC.toNat ≤ 0xFFE → (∀ i, decodeWord s.fetchWord ≠ .ok i) →
    cpuStep .fault s = .fault (.unknownOpcode s.PC s.fetchWord) ∧
    unknownOpcodePolicy = .fault ∧
    stepStatus .noOpAdvance s = .executed ∧
    ∃ t, cpuStep .noOpAdvance s = .next t ∧ t.PC = s.PC + 2 ∧ OnlyChanges [.PC] s t

/-- The step status: Fault exactly when the step faults, Waiting exactly when FX0A finds no key held, and then nothing at
all has changed. -/
def Obligations.OnlyKeyWaitWaits : Prop :=
  ∀ (p : Config.UnknownOpcodePolicy) (s : State),
    (∀ f, stepStatus p s = .fault f ↔ cpuStep p s = .fault f) ∧
    (stepStatus p s = .waiting ↔
      s.PC.toNat ≤ 0xFFE ∧ (∃ x, decodeWord s.fetchWord = .ok (.ldVxK x)) ∧ ∀ k, s.key k = false) ∧
    (stepStatus p s = .waiting → cpuStep p s = .next s) ∧
    (stepStatus p s = .executed → ∃ t, cpuStep p s = .next t)

/-- No instruction is refused, and no step is: every step ends in a next state or in a fault. -/
def Obligations.NothingIsRefused : Prop :=
  (∀ i s r, exec i s ≠ .refused r) ∧ (∀ s r, step s ≠ .refused r)

/-! ### Faults -/

/-- Every instruction faults exactly where the table of 60_exceptions R400 says, with the record it says, and completes
(or waits) everywhere else. The premise is the stack's invariant (10_state R36). -/
def Obligations.InstructionFaultsAreThoseListed : Prop :=
  ∀ (i : Instr) (s : State), s.S.length ≤ 16 →
    (∀ f, exec i s = .fault f ↔ faultOf i s = some f) ∧ (faultOf i s = none ↔ ∃ t, exec i s = .next t)

/-- The faults of a step in their priority: the fetch, then an unknown word under the policy Fault, then the
instruction's own. The premise is the stack's invariant (10_state R36). -/
def Obligations.StepFaultsAreThoseListed : Prop :=
  ∀ (p : Config.UnknownOpcodePolicy) (s : State) (f : Fault), s.S.length ≤ 16 →
    (cpuStep p s = .fault f ↔
      (0xFFE < s.PC.toNat ∧ f = .outOfBounds s.PC none (max s.PC.toNat 0x1000)) ∨
      (s.PC.toNat ≤ 0xFFE ∧ decodeWord s.fetchWord = .error (.unknown s.fetchWord) ∧ p = .fault ∧
        f = .unknownOpcode s.PC s.fetchWord) ∨
      (s.PC.toNat ≤ 0xFFE ∧ ∃ i, decodeWord s.fetchWord = .ok i ∧ faultOf i s = some f))

/-- Every fault's record holds the PC of the faulting step and the word it fetched, none for a fetch fault. -/
def Obligations.FaultRecordHoldsPcAndWord : Prop :=
  ∀ (p : Config.UnknownOpcodePolicy) (s : State) (f : Fault), cpuStep p s = .fault f →
    f.pc = s.PC ∧ f.op = if 0xFFE < s.PC.toNat then none else some s.fetchWord

/-- A fault is raised again whatever the keypad, the draw and the host's plans have become. -/
def Obligations.FaultIgnoresDrawAndKeypad : Prop :=
  ∀ (p : Config.UnknownOpcodePolicy) (s : State) (f : Fault) (K : Vector Bool 16) (ts : List Transaction) (n : Nat),
    cpuStep p s = .fault f → cpuStep p { s with K := K, host := ts, drawIndex := n } = .fault f

/-! ### Whole-machine rules -/

/-- The invariant holds after reset. -/
def Obligations.InvariantHoldsAtReset : Prop := Inv State.reset

/-- Every transaction keeps the invariant, under either policy: memory stays in canonical form inside 0x000-0xFFF, the
stack holds at most 16 return addresses of at most 0x1000, PC is at most 0x10FE. -/
def Obligations.EveryTransactionKeepsInvariant : Prop :=
  ∀ (p : Config.UnknownOpcodePolicy) (s t : State), Inv s → hostStep p s = .next t → Inv t

/-- No instruction writes a V register that 10_state R32 does not list for it. -/
def Obligations.OnlyListedRegistersWritten : Prop :=
  ∀ (i : Instr) (s t : State), exec i s = .next t → RegsExcept (writtenRegs i) s t

/-- No instruction writes a part of the state that its rule does not name: only CLS and DRW the frame buffer, only CALL and
RET the stack, only FX33 and FX55 memory, only FX15 DT and FX18 ST, only ANNN, FX1E and FX29 I, and none the keypad. -/
def Obligations.OnlyListedPartsWritten : Prop :=
  ∀ (i : Instr) (s t : State), exec i s = .next t → OnlyChanges (writtenParts i) s t

/-- Given the same state and the same inputs, the random draw among them, a transaction gives the same state and the same
outcome: the free value of the model decides nothing once the host's transaction is written down. -/
def Obligations.WrittenInputsDetermineTransaction : Prop :=
  ∀ (p : Config.UnknownOpcodePolicy) (s : State) (n : Nat), s.host ≠ [] →
    (∀ t, hostStep p s = .next t → ∃ m, hostStep p { s with drawIndex := n } = .next { t with drawIndex := m }) ∧
    (∀ f, hostStep p s = .fault f → hostStep p { s with drawIndex := n } = .fault f)

/-- A store into the next instruction's bytes is what the next step runs: FX55 at I = PC + 2 makes V0, V1 the next word. -/
def Obligations.StoredWordIsFetchedNext : Prop :=
  ∀ (s : State) (x : Reg) (i : Instr), s.host = [] → s.PC.toNat + 2 + (x.val + 1) ≤ 0x1000 → 1 ≤ x.val →
    decodeWord s.fetchWord = .ok (.ldMemStore x) → s.I = s.PC + 2 →
    decodeWord (wordOfBytes (s.reg 0) (s.reg 1)) = .ok i →
    ∃ t, step s = .next t ∧ t.PC = s.PC + 2 ∧ step t = exec i t

/-! ### Reset and the host's transactions -/

/-- The state after reset, and the state that the reset transaction makes of any other: every part as listed. FONT_DATA is
the parameter's default (10_state R41). -/
def Obligations.ResetStateIsAsListed : Prop :=
  ∀ t : State, (t = State.reset ∨ ∃ s, t = resetCore s) →
    fontData.length = 80 ∧
    (∀ a, a < 0x1000 → t.byteAt a = if 0x050 ≤ a ∧ a ≤ 0x09F then fontData.getD (a - 0x050) 0 else 0) ∧
    (∀ r, t.reg r = 0) ∧ t.I = 0 ∧ t.PC = 0x200 ∧ t.S = [] ∧ t.DT = 0 ∧ t.ST = 0 ∧ t.sound = false ∧
    (∀ x y, t.FB.pixel x y = false) ∧ (∀ k, t.key k = false)

/-- Each transaction of the host's list acts whole, and the list goes on: reset, load, tick, key write, the read-outs (which
change nothing), step. The list is the model's own field (log 2). That a load which fails changes nothing and lets the
host go on is the model's choice (log 13): 70_reset_and_hazards R503 calls the failure fatal at load time. -/
def Obligations.HostTransactionsActInOrder : Prop :=
  ∀ (p : Config.UnknownOpcodePolicy) (s : State) (rest : List Transaction),
    (s.host = .reset :: rest → hostStep p s = .next ((resetCore s).setHost rest) ∧ response p s = .none) ∧
    (∀ bytes, s.host = .load bytes :: rest →
      (∀ t, loadImage bytes s = .ok t → hostStep p s = .next (t.setHost rest) ∧ response p s = .loadOk) ∧
      (∀ e, loadImage bytes s = .error e → hostStep p s = .next (s.setHost rest) ∧ response p s = .loadFailed e)) ∧
    (s.host = .tick :: rest → hostStep p s = .next ((tick s).setHost rest) ∧ response p s = .none) ∧
    (∀ k b, s.host = .key k b :: rest → hostStep p s = .next ((s.setKey k b).setHost rest) ∧ response p s = .none) ∧
    (s.host = .readFB :: rest → hostStep p s = .next (s.setHost rest) ∧ response p s = .grid s.exportFB) ∧
    (s.host = .readSound :: rest → hostStep p s = .next (s.setHost rest) ∧ response p s = .sound s.sound) ∧
    (∀ r, s.host = .step r :: rest → response p s = .status (stepStatus p s) ∧
      ∀ t, cpuStep p s = .next t → hostStep p s = .next (t.setHost rest))

/-- A load of at most 3584 bytes writes them from 0x200 on and changes nothing else. -/
def Obligations.LoadWritesTheImage : Prop :=
  ∀ (s : State) (bytes : List Byte), bytes.length ≤ 3584 →
    ∃ t, loadImage bytes s = .ok t ∧ (∀ k (h : k < bytes.length), t.byteAt (0x200 + k) = bytes[k]) ∧
      BytesExcept 0x200 bytes.length s t ∧ OnlyChanges [.mem] s t

/-- A longer load fails with CapacityExceeded and makes no new state; one of 3584 bytes fills 0x200-0xFFF. -/
def Obligations.OverlongLoadWritesNothing : Prop :=
  ∀ (s : State) (bytes : List Byte),
    (3584 < bytes.length → loadImage bytes s = .error .capacityExceeded) ∧
    (bytes.length = 3584 → ∃ t, loadImage bytes s = .ok t ∧
      ∀ a, 0x200 ≤ a → a ≤ 0xFFF → some (t.byteAt a) = bytes[a - 0x200]?)

/-- A tick counts each timer down by one, to the floor 0, and changes nothing else. -/
def Obligations.TickCountsBothTimersDown : Prop :=
  ∀ s : State, (tick s).DT.toNat = s.DT.toNat - 1 ∧ (tick s).ST.toNat = s.ST.toNat - 1 ∧
    OnlyChanges [.DT, .ST] s (tick s)

/-- A key write sets one flag of the keypad and changes nothing else. -/
def Obligations.KeyWriteSetsOneFlag : Prop :=
  ∀ (s : State) (k : Key) (b : Bool), (s.setKey k b).key k = b ∧ (∀ j, j ≠ k → (s.setKey k b).key j = s.key j) ∧
    OnlyChanges [.K] s (s.setKey k b)

/-- The read-outs: 2048 booleans, pixel (x, y) at y*64 + x; sound is `ST != 0`. -/
def Obligations.ReadOutsShowTheState : Prop :=
  ∀ s : State, s.exportFB.length = 2048 ∧
    (∀ (x : Col) (y : Row), s.exportFB[y.val * 64 + x.val]? = some (s.FB.pixel x y)) ∧
    (s.sound = true ↔ s.ST.toNat ≠ 0)

/-! ### Control flow -/

/-- SYS: PC moves on and nothing else changes. -/
def Obligations.SysOnlyAdvancesPc : Prop :=
  ∀ (nnn : Addr12) (s : State),
    (nnn ≠ 0x0E0 → nnn ≠ 0x0EE → HasWord (.sys nnn) nnn.toNat) ∧
    ∃ t, exec (.sys nnn) s = .next t ∧ t.PC = s.PC + 2 ∧ OnlyChanges [.PC] s t

/-- Zeroed memory from 0x200 on runs as SYS: 1792 steps reach PC = 0x1000 and the 1793rd raises OutOfBounds(0x1000). -/
def Obligations.ZeroedMemoryRunsToItsEnd : Prop :=
  ∀ s : State, s.host = [] → s.PC = 0x200 → (∀ a, 0x200 ≤ a → a < 0x1000 → s.byteAt a = 0) →
    core.run 1792 s = .next (s.setPC 0x1000) ∧ core.run 1793 s = .fault (.outOfBounds 0x1000 none 0x1000)

/-- JP: PC becomes NNN. -/
def Obligations.JumpSetsPc : Prop :=
  ∀ (nnn : Addr12) (s : State), HasWord (.jp nnn) (0x1000 + nnn.toNat) ∧
    ∃ t, exec (.jp nnn) s = .next t ∧ t.PC.toNat = nnn.toNat ∧ OnlyChanges [.PC] s t

/-- JP V0: PC becomes NNN + V0, with no wrap. -/
def Obligations.JumpWithOffsetAddsV0 : Prop :=
  ∀ (nnn : Addr12) (s : State), HasWord (.jpV0 nnn) (0xB000 + nnn.toNat) ∧
    ∃ t, exec (.jpV0 nnn) s = .next t ∧ t.PC.toNat = nnn.toNat + (s.reg 0).toNat ∧ OnlyChanges [.PC] s t

/-- CALL: PC + 2 is pushed and PC becomes NNN; with 16 entries it raises StackOverflow. -/
def Obligations.CallPushesReturnAddress : Prop :=
  ∀ (nnn : Addr12) (s : State), HasWord (.call nnn) (0x2000 + nnn.toNat) ∧
    (s.S.length < 16 → ∃ t, exec (.call nnn) s = .next t ∧ t.S = s.S ++ [s.PC + 2] ∧ t.PC.toNat = nnn.toNat ∧
      OnlyChanges [.S, .PC] s t) ∧
    (s.S.length = 16 → exec (.call nnn) s = .fault (.stackOverflow s.PC (encodeWord (.call nnn))))

/-- RET: the last entry is popped into PC as it is; with none it raises StackUnderflow. -/
def Obligations.ReturnPopsIntoPc : Prop :=
  HasWord .ret 0x00EE ∧
  ∀ (s : State),
    (∀ (rest : List Word) (v : Word), s.S = rest ++ [v] → ∃ t, exec .ret s = .next t ∧ t.PC = v ∧ t.S = rest ∧
      OnlyChanges [.S, .PC] s t) ∧
    (s.S = [] → exec .ret s = .fault (.stackUnderflow s.PC 0x00EE))

/-- A CALL, any run of transactions without a reset that never falls below the depth after the CALL, and a RET at that
depth: PC is the address after the CALL, and the stack is as before it. -/
def Obligations.ReturnComesBackToTheCall : Prop :=
  ∀ (nnn : Addr12) (s t u : State), exec (.call nnn) s = .next t → DeepRun s.S.length t u →
    u.S.length = s.S.length + 1 → ∃ w, exec .ret u = .next w ∧ w.PC = s.PC + 2 ∧ w.S = s.S

/-- The step lemma behind ReturnComesBackToTheCall: a transaction that is no reset and does not cut the stack below the
entries `l` keeps `l` at its bottom, under either policy. Which transaction comes next is the model's own `host` list
(log 2). -/
def Obligations.TransactionKeepsTheStackBelow : Prop :=
  ∀ (p : Config.UnknownOpcodePolicy) (s t : State) (l : List Word), s.host.head? ≠ some .reset →
    hostStep p s = .next t → l <+: s.S → l.length ≤ t.S.length → l <+: t.S

/-- SE and SNE with an immediate: PC + 4 when the condition holds, PC + 2 otherwise. -/
def Obligations.ImmediateSkipsCompare : Prop :=
  ∀ (x : Reg) (nn : Byte) (s : State),
    HasWord (.seImm x nn) (0x3000 + x.val * 0x100 + nn.toNat) ∧
    HasWord (.sneImm x nn) (0x4000 + x.val * 0x100 + nn.toNat) ∧
    (∃ t, exec (.seImm x nn) s = .next t ∧ OnlyChanges [.PC] s t ∧
      (s.reg x = nn → t.PC = s.PC + 4) ∧ (s.reg x ≠ nn → t.PC = s.PC + 2)) ∧
    (∃ t, exec (.sneImm x nn) s = .next t ∧ OnlyChanges [.PC] s t ∧
      (s.reg x ≠ nn → t.PC = s.PC + 4) ∧ (s.reg x = nn → t.PC = s.PC + 2))

/-- SE and SNE with a register. -/
def Obligations.RegisterSkipsCompare : Prop :=
  ∀ (x y : Reg) (s : State),
    HasWord (.seReg x y) (0x5000 + x.val * 0x100 + y.val * 0x10) ∧
    HasWord (.sneReg x y) (0x9000 + x.val * 0x100 + y.val * 0x10) ∧
    (∃ t, exec (.seReg x y) s = .next t ∧ OnlyChanges [.PC] s t ∧
      (s.reg x = s.reg y → t.PC = s.PC + 4) ∧ (s.reg x ≠ s.reg y → t.PC = s.PC + 2)) ∧
    (∃ t, exec (.sneReg x y) s = .next t ∧ OnlyChanges [.PC] s t ∧
      (s.reg x ≠ s.reg y → t.PC = s.PC + 4) ∧ (s.reg x = s.reg y → t.PC = s.PC + 2))

/-- SKP and SKNP: a key number up to 0xF decides the skip by the keypad; a larger one raises OperandRange. -/
def Obligations.KeySkipsReadTheKeypad : Prop :=
  ∀ (x : Reg) (s : State),
    HasWord (.skp x) (0xE09E + x.val * 0x100) ∧ HasWord (.sknp x) (0xE0A1 + x.val * 0x100) ∧
    (∀ k : Key, (s.reg x).toNat = k.val →
      (∃ t, exec (.skp x) s = .next t ∧ OnlyChanges [.PC] s t ∧
        (s.key k = true → t.PC = s.PC + 4) ∧ (s.key k = false → t.PC = s.PC + 2)) ∧
      (∃ t, exec (.sknp x) s = .next t ∧ OnlyChanges [.PC] s t ∧
        (s.key k = false → t.PC = s.PC + 4) ∧ (s.key k = true → t.PC = s.PC + 2))) ∧
    (0x0F < (s.reg x).toNat →
      exec (.skp x) s = .fault (.operandRange s.PC (encodeWord (.skp x)) (s.reg x)) ∧
      exec (.sknp x) s = .fault (.operandRange s.PC (encodeWord (.sknp x)) (s.reg x)))

/-! ### Data -/

/-- LD VX, NN and LD VX, VY. -/
def Obligations.LoadsCopyIntoRegister : Prop :=
  ∀ (x y : Reg) (nn : Byte) (s : State),
    HasWord (.ldImm x nn) (0x6000 + x.val * 0x100 + nn.toNat) ∧
    HasWord (.ldReg x y) (0x8000 + x.val * 0x100 + y.val * 0x10) ∧
    (∃ t, exec (.ldImm x nn) s = .next t ∧ t.reg x = nn ∧ RegsExcept [x] s t ∧ t.PC = s.PC + 2 ∧
      OnlyChanges [.V, .PC] s t) ∧
    (∃ t, exec (.ldReg x y) s = .next t ∧ t.reg x = s.reg y ∧ RegsExcept [x] s t ∧ t.PC = s.PC + 2 ∧
      OnlyChanges [.V, .PC] s t)

/-- ADD VX, NN: modulo 256, and no other register is written, VF neither. -/
def Obligations.AddImmediateWritesNoFlag : Prop :=
  ∀ (x : Reg) (nn : Byte) (s : State), HasWord (.addImm x nn) (0x7000 + x.val * 0x100 + nn.toNat) ∧
    ∃ t, exec (.addImm x nn) s = .next t ∧ (t.reg x).toNat = ((s.reg x).toNat + nn.toNat) % 256 ∧
      RegsExcept [x] s t ∧ t.PC = s.PC + 2 ∧ OnlyChanges [.V, .PC] s t

/-- OR, AND, XOR: bit by bit, and no flag. -/
def Obligations.LogicWorksBitByBit : Prop :=
  ∀ (x y : Reg) (s : State),
    HasWord (.orReg x y) (0x8001 + x.val * 0x100 + y.val * 0x10) ∧
    HasWord (.andReg x y) (0x8002 + x.val * 0x100 + y.val * 0x10) ∧
    HasWord (.xorReg x y) (0x8003 + x.val * 0x100 + y.val * 0x10) ∧
    (∃ t, exec (.orReg x y) s = .next t ∧
      (∀ b, (t.reg x).getLsbD b = ((s.reg x).getLsbD b || (s.reg y).getLsbD b)) ∧
      RegsExcept [x] s t ∧ t.PC = s.PC + 2 ∧ OnlyChanges [.V, .PC] s t) ∧
    (∃ t, exec (.andReg x y) s = .next t ∧
      (∀ b, (t.reg x).getLsbD b = ((s.reg x).getLsbD b && (s.reg y).getLsbD b)) ∧
      RegsExcept [x] s t ∧ t.PC = s.PC + 2 ∧ OnlyChanges [.V, .PC] s t) ∧
    (∃ t, exec (.xorReg x y) s = .next t ∧
      (∀ b, (t.reg x).getLsbD b = ((s.reg x).getLsbD b ^^ (s.reg y).getLsbD b)) ∧
      RegsExcept [x] s t ∧ t.PC = s.PC + 2 ∧ OnlyChanges [.V, .PC] s t)

/-- ADD VX, VY: the sum modulo 256 and the carry in VF, the carry written last. -/
def Obligations.AddRegistersSetsCarry : Prop :=
  ∀ (x y : Reg) (s : State), HasWord (.addReg x y) (0x8004 + x.val * 0x100 + y.val * 0x10) ∧
    ∃ t, exec (.addReg x y) s = .next t ∧
      (x ≠ 15 → (t.reg x).toNat = ((s.reg x).toNat + (s.reg y).toNat) % 256) ∧
      (t.reg 15).toNat = (if 255 < (s.reg x).toNat + (s.reg y).toNat then 1 else 0) ∧
      RegsExcept [x, 15] s t ∧ t.PC = s.PC + 2 ∧ OnlyChanges [.V, .PC] s t

/-- SUB: V[X] - V[Y] modulo 256 and NOT borrow in VF, the flag written last. -/
def Obligations.SubtractSetsNotBorrow : Prop :=
  ∀ (x y : Reg) (s : State), HasWord (.sub x y) (0x8005 + x.val * 0x100 + y.val * 0x10) ∧
    ∃ t, exec (.sub x y) s = .next t ∧
      (x ≠ 15 → ((t.reg x).toNat : Int) = (((s.reg x).toNat : Int) - (s.reg y).toNat) % 256) ∧
      (t.reg 15).toNat = (if (s.reg y).toNat ≤ (s.reg x).toNat then 1 else 0) ∧
      RegsExcept [x, 15] s t ∧ t.PC = s.PC + 2 ∧ OnlyChanges [.V, .PC] s t

/-- SUBN: V[Y] - V[X] modulo 256 and NOT borrow in VF, the flag written last. -/
def Obligations.SubtractReversedSetsNotBorrow : Prop :=
  ∀ (x y : Reg) (s : State), HasWord (.subn x y) (0x8007 + x.val * 0x100 + y.val * 0x10) ∧
    ∃ t, exec (.subn x y) s = .next t ∧
      (x ≠ 15 → ((t.reg x).toNat : Int) = (((s.reg y).toNat : Int) - (s.reg x).toNat) % 256) ∧
      (t.reg 15).toNat = (if (s.reg x).toNat ≤ (s.reg y).toNat then 1 else 0) ∧
      RegsExcept [x, 15] s t ∧ t.PC = s.PC + 2 ∧ OnlyChanges [.V, .PC] s t

/-- SHR: V[X] halved, bit 0 in VF, for every Y. -/
def Obligations.ShiftRightMovesLowBitToFlag : Prop :=
  ∀ (x y : Reg) (s : State), HasWord (.shr x y) (0x8006 + x.val * 0x100 + y.val * 0x10) ∧
    ∃ t, exec (.shr x y) s = .next t ∧
      (x ≠ 15 → (t.reg x).toNat = (s.reg x).toNat / 2) ∧ (t.reg 15).toNat = (s.reg x).toNat % 2 ∧
      RegsExcept [x, 15] s t ∧ t.PC = s.PC + 2 ∧ OnlyChanges [.V, .PC] s t

/-- SHL: V[X] doubled modulo 256, bit 7 in VF, for every Y. -/
def Obligations.ShiftLeftMovesHighBitToFlag : Prop :=
  ∀ (x y : Reg) (s : State), HasWord (.shl x y) (0x800E + x.val * 0x100 + y.val * 0x10) ∧
    ∃ t, exec (.shl x y) s = .next t ∧
      (x ≠ 15 → (t.reg x).toNat = (s.reg x).toNat * 2 % 256) ∧ (t.reg 15).toNat = (s.reg x).toNat / 128 ∧
      RegsExcept [x, 15] s t ∧ t.PC = s.PC + 2 ∧ OnlyChanges [.V, .PC] s t

/-- RND: the step's draw, whatever it is, AND the mask. The draw counter is the model's own (log 1). -/
def Obligations.RandomIsDrawAndMask : Prop :=
  ∀ (x : Reg) (nn : Byte) (s : State), HasWord (.rnd x nn) (0xC000 + x.val * 0x100 + nn.toNat) ∧
    ∃ t, exec (.rnd x nn) s = .next t ∧ (∀ b, (t.reg x).getLsbD b = (s.rnd.getLsbD b && nn.getLsbD b)) ∧
      RegsExcept [x] s t ∧ t.PC = s.PC + 2 ∧ OnlyChanges [.V, .PC, .drawIndex] s t

/-! ### Memory and index -/

/-- LD I, NNN and ADD I, VX: modulo 0x10000, and no flag. -/
def Obligations.IndexLoadsAndAdds : Prop :=
  ∀ (nnn : Addr12) (x : Reg) (s : State),
    HasWord (.ldI nnn) (0xA000 + nnn.toNat) ∧ HasWord (.addI x) (0xF01E + x.val * 0x100) ∧
    (∃ t, exec (.ldI nnn) s = .next t ∧ t.I.toNat = nnn.toNat ∧ t.PC = s.PC + 2 ∧ OnlyChanges [.I, .PC] s t) ∧
    (∃ t, exec (.addI x) s = .next t ∧ t.I.toNat = (s.I.toNat + (s.reg x).toNat) % 0x10000 ∧ t.PC = s.PC + 2 ∧
      OnlyChanges [.I, .PC] s t)

/-- LD F: the glyph's address 0x050 + 5 * V[X] for a digit; a larger value raises OperandRange. -/
def Obligations.GlyphAddressForDigit : Prop :=
  ∀ (x : Reg) (s : State), HasWord (.ldF x) (0xF029 + x.val * 0x100) ∧
    ((s.reg x).toNat ≤ 0x0F → ∃ t, exec (.ldF x) s = .next t ∧ t.I.toNat = 0x050 + 5 * (s.reg x).toNat ∧
      t.PC = s.PC + 2 ∧ OnlyChanges [.I, .PC] s t) ∧
    (0x0F < (s.reg x).toNat → exec (.ldF x) s = .fault (.operandRange s.PC (encodeWord (.ldF x)) (s.reg x)))

/-- LD B: the decimal digits of V[X] at I, I+1, I+2, every other byte as before; OutOfBounds past 0xFFF. -/
def Obligations.DecimalDigitsStoredAtIndex : Prop :=
  ∀ (x : Reg) (s : State), HasWord (.ldB x) (0xF033 + x.val * 0x100) ∧
    (s.I.toNat + 2 ≤ 0xFFF → ∃ t, exec (.ldB x) s = .next t ∧
      (t.byteAt s.I.toNat).toNat = (s.reg x).toNat / 100 ∧
      (t.byteAt (s.I.toNat + 1)).toNat = (s.reg x).toNat / 10 % 10 ∧
      (t.byteAt (s.I.toNat + 2)).toNat = (s.reg x).toNat % 10 ∧
      BytesExcept s.I.toNat 3 s t ∧ t.PC = s.PC + 2 ∧ OnlyChanges [.mem, .PC] s t) ∧
    (0xFFF < s.I.toNat + 2 →
      exec (.ldB x) s = .fault (.outOfBounds s.PC (some (encodeWord (.ldB x))) (max s.I.toNat 0x1000)))

/-- LD [I], VX: V0..VX at I.., every other byte as before, I unchanged; OutOfBounds past 0xFFF. -/
def Obligations.RegistersStoredAtIndex : Prop :=
  ∀ (x : Reg) (s : State), HasWord (.ldMemStore x) (0xF055 + x.val * 0x100) ∧
    (s.I.toNat + x.val ≤ 0xFFF → ∃ t, exec (.ldMemStore x) s = .next t ∧
      (∀ r : Reg, r ≤ x → t.byteAt (s.I.toNat + r.val) = s.reg r) ∧
      BytesExcept s.I.toNat (x.val + 1) s t ∧ t.PC = s.PC + 2 ∧ OnlyChanges [.mem, .PC] s t) ∧
    (0xFFF < s.I.toNat + x.val → exec (.ldMemStore x) s =
      .fault (.outOfBounds s.PC (some (encodeWord (.ldMemStore x))) (max s.I.toNat 0x1000)))

/-- LD VX, [I]: V0..VX from I.., every other register as before, I unchanged; OutOfBounds past 0xFFF. -/
def Obligations.RegistersLoadedFromIndex : Prop :=
  ∀ (x : Reg) (s : State), HasWord (.ldMemLoad x) (0xF065 + x.val * 0x100) ∧
    (s.I.toNat + x.val ≤ 0xFFF → ∃ t, exec (.ldMemLoad x) s = .next t ∧
      (∀ r : Reg, r ≤ x → t.reg r = s.byteAt (s.I.toNat + r.val)) ∧ (∀ r : Reg, x < r → t.reg r = s.reg r) ∧
      t.PC = s.PC + 2 ∧ OnlyChanges [.V, .PC] s t) ∧
    (0xFFF < s.I.toNat + x.val → exec (.ldMemLoad x) s =
      .fault (.outOfBounds s.PC (some (encodeWord (.ldMemLoad x))) (max s.I.toNat 0x1000)))

/-! ### Graphics -/

/-- CLS: every pixel false, nothing else changed. -/
def Obligations.ClearScreenClearsEveryPixel : Prop :=
  HasWord .cls 0x00E0 ∧
  ∀ s : State, ∃ t, exec .cls s = .next t ∧ (∀ x y, t.FB.pixel x y = false) ∧ t.PC = s.PC + 2 ∧
    OnlyChanges [.FB, .PC] s t

/-- DRW: exactly the pixels under the sprite's 1 bits are inverted, with wraparound; VF tells whether a lit pixel was
turned off; a sprite that runs past 0xFFF raises OutOfBounds; N = 0 reads nothing and raises nothing. -/
def Obligations.DrawInvertsThePixelsOfTheSprite : Prop :=
  ∀ (x y : Reg) (n : RowCount) (s : State),
    HasWord (.drw x y n) (0xD000 + x.val * 0x100 + y.val * 0x10 + n.val) ∧
    (n.val = 0 ∨ s.I.toNat + n.val ≤ 0x1000 → ∃ t, exec (.drw x y n) s = .next t ∧
      (∀ px py, SpriteCovers s x y n.val px py → t.FB.pixel px py = !s.FB.pixel px py) ∧
      (∀ px py, ¬ SpriteCovers s x y n.val px py → t.FB.pixel px py = s.FB.pixel px py) ∧
      (t.reg 15 = 1 ↔ ∃ px py, s.FB.pixel px py = true ∧ t.FB.pixel px py = false) ∧
      (t.reg 15 = 0 ↔ ¬ ∃ px py, s.FB.pixel px py = true ∧ t.FB.pixel px py = false) ∧
      RegsExcept [15] s t ∧ t.PC = s.PC + 2 ∧ OnlyChanges [.FB, .V, .PC] s t) ∧
    (0 < n.val → 0x1000 < s.I.toNat + n.val → exec (.drw x y n) s =
      .fault (.outOfBounds s.PC (some (encodeWord (.drw x y n))) (max s.I.toNat 0x1000)))

/-- Drawing a sprite again at the same coordinates restores every pixel, and the second draw reports a collision exactly
when the first one lit a pixel. -/
def Obligations.DrawingTwiceRestoresTheScreen : Prop :=
  ∀ (x y : Reg) (n : RowCount) (s t : State), exec (.drw x y n) s = .next t →
    t.reg x = s.reg x → t.reg y = s.reg y →
    ∃ u, exec (.drw x y n) t = .next u ∧ (∀ px py, u.FB.pixel px py = s.FB.pixel px py) ∧
      (u.reg 15 = 1 ↔ ∃ px py, SpriteCovers s x y n.val px py ∧ s.FB.pixel px py = false)

/-! ### Timers and input -/

/-- LD VX, DT; LD DT, VX; LD ST, VX. -/
def Obligations.TimerMovesCopyTheValue : Prop :=
  ∀ (x : Reg) (s : State),
    HasWord (.ldVxDt x) (0xF007 + x.val * 0x100) ∧ HasWord (.ldDtVx x) (0xF015 + x.val * 0x100) ∧
    HasWord (.ldStVx x) (0xF018 + x.val * 0x100) ∧
    (∃ t, exec (.ldVxDt x) s = .next t ∧ t.reg x = s.DT ∧ RegsExcept [x] s t ∧ t.PC = s.PC + 2 ∧
      OnlyChanges [.V, .PC] s t) ∧
    (∃ t, exec (.ldDtVx x) s = .next t ∧ t.DT = s.reg x ∧ t.PC = s.PC + 2 ∧ OnlyChanges [.DT, .PC] s t) ∧
    (∃ t, exec (.ldStVx x) s = .next t ∧ t.ST = s.reg x ∧ (t.sound = true ↔ s.reg x ≠ 0) ∧ t.PC = s.PC + 2 ∧
      OnlyChanges [.ST, .PC] s t)

/-- LD VX, K: the lowest key held is latched; with none held nothing changes. -/
def Obligations.KeyWaitLatchesTheLowestKey : Prop :=
  ∀ (x : Reg) (s : State), HasWord (.ldVxK x) (0xF00A + x.val * 0x100) ∧
    (∀ k : Key, s.key k = true → (∀ j, j < k → s.key j = false) →
      ∃ t, exec (.ldVxK x) s = .next t ∧ (t.reg x).toNat = k.val ∧ RegsExcept [x] s t ∧ t.PC = s.PC + 2 ∧
        OnlyChanges [.V, .PC] s t) ∧
    ((∀ k, s.key k = false) → exec (.ldVxK x) s = .next s)
end

