-- ==== Sys2Proof/Laws/Decode.lean ====
section
/-! SUPPORT. The fields of an encoded word, and a word from its fields. -/

namespace Sys2Proof

/-- A field of a word, as a number (00_scope R8, `v[hi:lo]`). -/
theorem extract_toNat (op : Word) (lo n : Nat) : (op.extractLsb' lo n).toNat = op.toNat / 2 ^ lo % 2 ^ n := by
  simp [BitVec.extractLsb'_toNat, Nat.shiftRight_eq_div_pow]

theorem majorField_val (op : Word) : (majorField op).val = op.toNat / 4096 % 16 := by
  simpa [majorField] using extract_toNat op 12 4
theorem xField_val (op : Word) : (xField op).val = op.toNat / 256 % 16 := by
  simpa [xField] using extract_toNat op 8 4
theorem yField_val (op : Word) : (yField op).val = op.toNat / 16 % 16 := by
  simpa [yField] using extract_toNat op 4 4
theorem nField_val (op : Word) : (nField op).val = op.toNat % 16 := by
  simp [nField]
theorem nnField_toNat (op : Word) : (nnField op).toNat = op.toNat % 256 := by
  simp [nnField]
theorem nnnField_toNat (op : Word) : (nnnField op).toNat = op.toNat % 4096 := by
  simp [nnnField]

/-- A concatenation as a number (00_scope R8, `a ++ b`). -/
theorem append_toNat {m n : Nat} (a : BitVec m) (b : BitVec n) : (a ++ b).toNat = a.toNat * 2 ^ n + b.toNat := by
  rw [BitVec.toNat_append, ← Nat.shiftLeft_add_eq_or_of_lt b.isLt, Nat.shiftLeft_eq]

theorem wordNNN_toNat (m : BitVec 4) (nnn : Addr12) : (wordNNN m nnn).toNat = m.toNat * 4096 + nnn.toNat :=
  append_toNat m nnn

theorem wordXNN_toNat (m : BitVec 4) (x : Fin 16) (nn : Byte) :
    (wordXNN m x nn).toNat = m.toNat * 4096 + x.val * 256 + nn.toNat := by
  show (m ++ nibble x ++ nn).toNat = _
  rw [append_toNat, append_toNat, show (nibble x).toNat = x.val from rfl]
  omega

theorem wordXYN_toNat (m : BitVec 4) (x y n : Fin 16) :
    (wordXYN m x y n).toNat = m.toNat * 4096 + x.val * 256 + y.val * 16 + n.val := by
  show (m ++ nibble x ++ nibble y ++ nibble n).toNat = _
  rw [append_toNat, append_toNat, append_toNat, show (nibble x).toNat = x.val from rfl,
    show (nibble y).toNat = y.val from rfl, show (nibble n).toNat = n.val from rfl]
  omega

/-- The fields of an `F-NNN` word are what it was made of (30_encoding R103). -/
theorem fields_wordNNN (m : BitVec 4) (nnn : Addr12) :
    majorField (wordNNN m nnn) = m.toFin ∧ nnnField (wordNNN m nnn) = nnn := by
  have h := wordNNN_toNat m nnn
  have hm := m.isLt
  have hn := nnn.isLt
  refine ⟨Fin.ext ?_, BitVec.eq_of_toNat_eq ?_⟩
  · rw [majorField_val, h]; simp; omega
  · rw [nnnField_toNat, h]; omega

/-- The fields of an `F-XNN` or `F-XKK` word are what it was made of (30_encoding R103). -/
theorem fields_wordXNN (m : BitVec 4) (x : Fin 16) (nn : Byte) :
    majorField (wordXNN m x nn) = m.toFin ∧ xField (wordXNN m x nn) = x ∧ nnField (wordXNN m x nn) = nn := by
  have h := wordXNN_toNat m x nn
  have hm := m.isLt
  have hn := nn.isLt
  refine ⟨Fin.ext ?_, Fin.ext ?_, BitVec.eq_of_toNat_eq ?_⟩
  · rw [majorField_val, h]; simp; omega
  · rw [xField_val, h]; omega
  · rw [nnField_toNat, h]; omega

/-- The fields of an `F-XYN` or `F-DXYN` word are what it was made of (30_encoding R103). -/
theorem fields_wordXYN (m : BitVec 4) (x y n : Fin 16) :
    majorField (wordXYN m x y n) = m.toFin ∧ xField (wordXYN m x y n) = x ∧ yField (wordXYN m x y n) = y ∧
      nField (wordXYN m x y n) = n := by
  have h := wordXYN_toNat m x y n
  have hm := m.isLt
  refine ⟨Fin.ext ?_, Fin.ext ?_, Fin.ext ?_, Fin.ext ?_⟩
  · rw [majorField_val, h]; simp; omega
  · rw [xField_val, h]; omega
  · rw [yField_val, h]; omega
  · rw [nField_val, h]; omega

/-- The bytes of a word, put together again (20_memory R73). -/
theorem wordOfBytes_bytes (op : Word) : wordOfBytes (op.extractLsb' 8 8) (op.extractLsb' 0 8) = op := by
  apply BitVec.eq_of_toNat_eq
  show (op.extractLsb' 8 8 ++ op.extractLsb' 0 8).toNat = _
  rw [append_toNat, extract_toNat, extract_toNat]
  have := op.isLt
  omega

end Sys2Proof
end

