-- ==== Sys2Proof/Laws/State.lean ====
section
/-! SUPPORT. One lemma for each field after each update, so that no proof unfolds a record update. -/

namespace Sys2Proof.Machine.State

open Sys2Proof Sys2Proof.Machine

variable (s : State)

/-! ### setReg: `V[x] <- v` -/

@[simp] theorem setReg_mem (x : Reg) (v : Byte) : (s.setReg x v).mem = s.mem := rfl
@[simp] theorem setReg_V (x : Reg) (v : Byte) : (s.setReg x v).V = s.V.set x v := rfl
@[simp] theorem setReg_I (x : Reg) (v : Byte) : (s.setReg x v).I = s.I := rfl
@[simp] theorem setReg_PC (x : Reg) (v : Byte) : (s.setReg x v).PC = s.PC := rfl
@[simp] theorem setReg_S (x : Reg) (v : Byte) : (s.setReg x v).S = s.S := rfl
@[simp] theorem setReg_DT (x : Reg) (v : Byte) : (s.setReg x v).DT = s.DT := rfl
@[simp] theorem setReg_ST (x : Reg) (v : Byte) : (s.setReg x v).ST = s.ST := rfl
@[simp] theorem setReg_FB (x : Reg) (v : Byte) : (s.setReg x v).FB = s.FB := rfl
@[simp] theorem setReg_K (x : Reg) (v : Byte) : (s.setReg x v).K = s.K := rfl
@[simp] theorem setReg_host (x : Reg) (v : Byte) : (s.setReg x v).host = s.host := rfl
@[simp] theorem setReg_drawIndex (x : Reg) (v : Byte) : (s.setReg x v).drawIndex = s.drawIndex := rfl

/-! ### setI: `I <- v` -/

@[simp] theorem setI_mem (v : Word) : (s.setI v).mem = s.mem := rfl
@[simp] theorem setI_V (v : Word) : (s.setI v).V = s.V := rfl
@[simp] theorem setI_I (v : Word) : (s.setI v).I = v := rfl
@[simp] theorem setI_PC (v : Word) : (s.setI v).PC = s.PC := rfl
@[simp] theorem setI_S (v : Word) : (s.setI v).S = s.S := rfl
@[simp] theorem setI_DT (v : Word) : (s.setI v).DT = s.DT := rfl
@[simp] theorem setI_ST (v : Word) : (s.setI v).ST = s.ST := rfl
@[simp] theorem setI_FB (v : Word) : (s.setI v).FB = s.FB := rfl
@[simp] theorem setI_K (v : Word) : (s.setI v).K = s.K := rfl
@[simp] theorem setI_host (v : Word) : (s.setI v).host = s.host := rfl
@[simp] theorem setI_drawIndex (v : Word) : (s.setI v).drawIndex = s.drawIndex := rfl

/-! ### setPC: `PC <- v` -/

@[simp] theorem setPC_mem (v : Word) : (s.setPC v).mem = s.mem := rfl
@[simp] theorem setPC_V (v : Word) : (s.setPC v).V = s.V := rfl
@[simp] theorem setPC_I (v : Word) : (s.setPC v).I = s.I := rfl
@[simp] theorem setPC_PC (v : Word) : (s.setPC v).PC = v := rfl
@[simp] theorem setPC_S (v : Word) : (s.setPC v).S = s.S := rfl
@[simp] theorem setPC_DT (v : Word) : (s.setPC v).DT = s.DT := rfl
@[simp] theorem setPC_ST (v : Word) : (s.setPC v).ST = s.ST := rfl
@[simp] theorem setPC_FB (v : Word) : (s.setPC v).FB = s.FB := rfl
@[simp] theorem setPC_K (v : Word) : (s.setPC v).K = s.K := rfl
@[simp] theorem setPC_host (v : Word) : (s.setPC v).host = s.host := rfl
@[simp] theorem setPC_drawIndex (v : Word) : (s.setPC v).drawIndex = s.drawIndex := rfl

/-! ### advance: `PC <- next` -/

@[simp] theorem advance_mem : (s.advance).mem = s.mem := rfl
@[simp] theorem advance_V : (s.advance).V = s.V := rfl
@[simp] theorem advance_I : (s.advance).I = s.I := rfl
@[simp] theorem advance_PC : (s.advance).PC = s.PC + 2 := rfl
@[simp] theorem advance_S : (s.advance).S = s.S := rfl
@[simp] theorem advance_DT : (s.advance).DT = s.DT := rfl
@[simp] theorem advance_ST : (s.advance).ST = s.ST := rfl
@[simp] theorem advance_FB : (s.advance).FB = s.FB := rfl
@[simp] theorem advance_K : (s.advance).K = s.K := rfl
@[simp] theorem advance_host : (s.advance).host = s.host := rfl
@[simp] theorem advance_drawIndex : (s.advance).drawIndex = s.drawIndex := rfl

/-! ### setStack: the stack -/

@[simp] theorem setStack_mem (v : List Word) : (s.setStack v).mem = s.mem := rfl
@[simp] theorem setStack_V (v : List Word) : (s.setStack v).V = s.V := rfl
@[simp] theorem setStack_I (v : List Word) : (s.setStack v).I = s.I := rfl
@[simp] theorem setStack_PC (v : List Word) : (s.setStack v).PC = s.PC := rfl
@[simp] theorem setStack_S (v : List Word) : (s.setStack v).S = v := rfl
@[simp] theorem setStack_DT (v : List Word) : (s.setStack v).DT = s.DT := rfl
@[simp] theorem setStack_ST (v : List Word) : (s.setStack v).ST = s.ST := rfl
@[simp] theorem setStack_FB (v : List Word) : (s.setStack v).FB = s.FB := rfl
@[simp] theorem setStack_K (v : List Word) : (s.setStack v).K = s.K := rfl
@[simp] theorem setStack_host (v : List Word) : (s.setStack v).host = s.host := rfl
@[simp] theorem setStack_drawIndex (v : List Word) : (s.setStack v).drawIndex = s.drawIndex := rfl

/-! ### setDT: `DT <- v` -/

@[simp] theorem setDT_mem (v : Byte) : (s.setDT v).mem = s.mem := rfl
@[simp] theorem setDT_V (v : Byte) : (s.setDT v).V = s.V := rfl
@[simp] theorem setDT_I (v : Byte) : (s.setDT v).I = s.I := rfl
@[simp] theorem setDT_PC (v : Byte) : (s.setDT v).PC = s.PC := rfl
@[simp] theorem setDT_S (v : Byte) : (s.setDT v).S = s.S := rfl
@[simp] theorem setDT_DT (v : Byte) : (s.setDT v).DT = v := rfl
@[simp] theorem setDT_ST (v : Byte) : (s.setDT v).ST = s.ST := rfl
@[simp] theorem setDT_FB (v : Byte) : (s.setDT v).FB = s.FB := rfl
@[simp] theorem setDT_K (v : Byte) : (s.setDT v).K = s.K := rfl
@[simp] theorem setDT_host (v : Byte) : (s.setDT v).host = s.host := rfl
@[simp] theorem setDT_drawIndex (v : Byte) : (s.setDT v).drawIndex = s.drawIndex := rfl

/-! ### setST: `ST <- v` -/

@[simp] theorem setST_mem (v : Byte) : (s.setST v).mem = s.mem := rfl
@[simp] theorem setST_V (v : Byte) : (s.setST v).V = s.V := rfl
@[simp] theorem setST_I (v : Byte) : (s.setST v).I = s.I := rfl
@[simp] theorem setST_PC (v : Byte) : (s.setST v).PC = s.PC := rfl
@[simp] theorem setST_S (v : Byte) : (s.setST v).S = s.S := rfl
@[simp] theorem setST_DT (v : Byte) : (s.setST v).DT = s.DT := rfl
@[simp] theorem setST_ST (v : Byte) : (s.setST v).ST = v := rfl
@[simp] theorem setST_FB (v : Byte) : (s.setST v).FB = s.FB := rfl
@[simp] theorem setST_K (v : Byte) : (s.setST v).K = s.K := rfl
@[simp] theorem setST_host (v : Byte) : (s.setST v).host = s.host := rfl
@[simp] theorem setST_drawIndex (v : Byte) : (s.setST v).drawIndex = s.drawIndex := rfl

/-! ### setFB: the frame buffer -/

@[simp] theorem setFB_mem (g : Grid) : (s.setFB g).mem = s.mem := rfl
@[simp] theorem setFB_V (g : Grid) : (s.setFB g).V = s.V := rfl
@[simp] theorem setFB_I (g : Grid) : (s.setFB g).I = s.I := rfl
@[simp] theorem setFB_PC (g : Grid) : (s.setFB g).PC = s.PC := rfl
@[simp] theorem setFB_S (g : Grid) : (s.setFB g).S = s.S := rfl
@[simp] theorem setFB_DT (g : Grid) : (s.setFB g).DT = s.DT := rfl
@[simp] theorem setFB_ST (g : Grid) : (s.setFB g).ST = s.ST := rfl
@[simp] theorem setFB_FB (g : Grid) : (s.setFB g).FB = g := rfl
@[simp] theorem setFB_K (g : Grid) : (s.setFB g).K = s.K := rfl
@[simp] theorem setFB_host (g : Grid) : (s.setFB g).host = s.host := rfl
@[simp] theorem setFB_drawIndex (g : Grid) : (s.setFB g).drawIndex = s.drawIndex := rfl

/-! ### setKey: `K[k] <- b` -/

@[simp] theorem setKey_mem (k : Key) (b : Bool) : (s.setKey k b).mem = s.mem := rfl
@[simp] theorem setKey_V (k : Key) (b : Bool) : (s.setKey k b).V = s.V := rfl
@[simp] theorem setKey_I (k : Key) (b : Bool) : (s.setKey k b).I = s.I := rfl
@[simp] theorem setKey_PC (k : Key) (b : Bool) : (s.setKey k b).PC = s.PC := rfl
@[simp] theorem setKey_S (k : Key) (b : Bool) : (s.setKey k b).S = s.S := rfl
@[simp] theorem setKey_DT (k : Key) (b : Bool) : (s.setKey k b).DT = s.DT := rfl
@[simp] theorem setKey_ST (k : Key) (b : Bool) : (s.setKey k b).ST = s.ST := rfl
@[simp] theorem setKey_FB (k : Key) (b : Bool) : (s.setKey k b).FB = s.FB := rfl
@[simp] theorem setKey_K (k : Key) (b : Bool) : (s.setKey k b).K = s.K.set k b := rfl
@[simp] theorem setKey_host (k : Key) (b : Bool) : (s.setKey k b).host = s.host := rfl
@[simp] theorem setKey_drawIndex (k : Key) (b : Bool) : (s.setKey k b).drawIndex = s.drawIndex := rfl

/-! ### setHost: the host's next transactions -/

@[simp] theorem setHost_mem (ts : List Transaction) : (s.setHost ts).mem = s.mem := rfl
@[simp] theorem setHost_V (ts : List Transaction) : (s.setHost ts).V = s.V := rfl
@[simp] theorem setHost_I (ts : List Transaction) : (s.setHost ts).I = s.I := rfl
@[simp] theorem setHost_PC (ts : List Transaction) : (s.setHost ts).PC = s.PC := rfl
@[simp] theorem setHost_S (ts : List Transaction) : (s.setHost ts).S = s.S := rfl
@[simp] theorem setHost_DT (ts : List Transaction) : (s.setHost ts).DT = s.DT := rfl
@[simp] theorem setHost_ST (ts : List Transaction) : (s.setHost ts).ST = s.ST := rfl
@[simp] theorem setHost_FB (ts : List Transaction) : (s.setHost ts).FB = s.FB := rfl
@[simp] theorem setHost_K (ts : List Transaction) : (s.setHost ts).K = s.K := rfl
@[simp] theorem setHost_host (ts : List Transaction) : (s.setHost ts).host = ts := rfl
@[simp] theorem setHost_drawIndex (ts : List Transaction) : (s.setHost ts).drawIndex = s.drawIndex := rfl

/-! ### countDraw: a draw taken -/

@[simp] theorem countDraw_mem : (s.countDraw).mem = s.mem := rfl
@[simp] theorem countDraw_V : (s.countDraw).V = s.V := rfl
@[simp] theorem countDraw_I : (s.countDraw).I = s.I := rfl
@[simp] theorem countDraw_PC : (s.countDraw).PC = s.PC := rfl
@[simp] theorem countDraw_S : (s.countDraw).S = s.S := rfl
@[simp] theorem countDraw_DT : (s.countDraw).DT = s.DT := rfl
@[simp] theorem countDraw_ST : (s.countDraw).ST = s.ST := rfl
@[simp] theorem countDraw_FB : (s.countDraw).FB = s.FB := rfl
@[simp] theorem countDraw_K : (s.countDraw).K = s.K := rfl
@[simp] theorem countDraw_host : (s.countDraw).host = s.host := rfl
@[simp] theorem countDraw_drawIndex : (s.countDraw).drawIndex = s.drawIndex + 1 := rfl

/-! ### store: bytes stored -/

@[simp] theorem store_mem (a : Nat) (bs : List Byte) : (s.store a bs).mem = Memory.writeBytes s.mem a bs := rfl
@[simp] theorem store_V (a : Nat) (bs : List Byte) : (s.store a bs).V = s.V := rfl
@[simp] theorem store_I (a : Nat) (bs : List Byte) : (s.store a bs).I = s.I := rfl
@[simp] theorem store_PC (a : Nat) (bs : List Byte) : (s.store a bs).PC = s.PC := rfl
@[simp] theorem store_S (a : Nat) (bs : List Byte) : (s.store a bs).S = s.S := rfl
@[simp] theorem store_DT (a : Nat) (bs : List Byte) : (s.store a bs).DT = s.DT := rfl
@[simp] theorem store_ST (a : Nat) (bs : List Byte) : (s.store a bs).ST = s.ST := rfl
@[simp] theorem store_FB (a : Nat) (bs : List Byte) : (s.store a bs).FB = s.FB := rfl
@[simp] theorem store_K (a : Nat) (bs : List Byte) : (s.store a bs).K = s.K := rfl
@[simp] theorem store_host (a : Nat) (bs : List Byte) : (s.store a bs).host = s.host := rfl
@[simp] theorem store_drawIndex (a : Nat) (bs : List Byte) : (s.store a bs).drawIndex = s.drawIndex := rfl

end Sys2Proof.Machine.State
end

