-- ==== Sys2Proof/Laws/Memory.lean ====
section
/-! SUPPORT. The laws of memory: reading what was written, leaving the rest alone, keeping the canonical form. -/

namespace Sys2Proof.Machine

open Sys2Proof

namespace Memory

theorem read_filter_self (m : List Host.Cell) (a : Nat) :
    Memory.read (m.filter (fun c => c.1 != a)) a = resetByte a := by
  induction m with
  | nil => rfl
  | cons c m ih =>
    by_cases h : c.1 = a
    · simpa [h] using ih
    · simpa [h, Memory.read] using ih

theorem read_filter_other (m : List Host.Cell) {a b : Nat} (h : b ≠ a) :
    Memory.read (m.filter (fun c => c.1 != a)) b = Memory.read m b := by
  induction m with
  | nil => rfl
  | cons c m ih =>
    by_cases hc : c.1 = a
    · simpa [hc, Memory.read, h.symm] using ih
    · simp [hc, Memory.read, ih]

theorem read_insert_self (m : List Host.Cell) (a : Nat) (v : Byte) (h : ∀ c ∈ m, c.1 ≠ a) :
    Memory.read (Memory.insert a v m) a = v := by
  induction m with
  | nil => simp [Memory.insert, Memory.read]
  | cons c m ih =>
    have hm : ∀ d ∈ m, d.1 ≠ a := fun d hd => h d (by simp [hd])
    by_cases hc : a < c.1
    · simp [Memory.insert, Memory.read, hc]
    · simpa [Memory.insert, Memory.read, hc, h c (by simp)] using ih hm

theorem read_insert_other (m : List Host.Cell) {a b : Nat} (v : Byte) (h : b ≠ a) :
    Memory.read (Memory.insert a v m) b = Memory.read m b := by
  induction m with
  | nil => simp [Memory.insert, Memory.read, h.symm]
  | cons c m ih =>
    by_cases hc : a < c.1
    · simp [Memory.insert, Memory.read, hc, h.symm]
    · simp [Memory.insert, Memory.read, hc, ih]

/-- A read after a write to the same address gives the value written. -/
@[simp] theorem read_write_self (m : List Host.Cell) (a : Nat) (v : Byte) :
    Memory.read (Memory.write m a v) a = v := by
  by_cases h : v = resetByte a
  · simp [Memory.write, h, read_filter_self]
  · simp only [Memory.write, h, if_false]
    exact read_insert_self _ _ _ (fun c hc => by simpa using (List.mem_filter.1 hc).2)

/-- A write leaves every other address alone. -/
theorem read_write_other (m : List Host.Cell) {a b : Nat} (v : Byte) (h : b ≠ a) :
    Memory.read (Memory.write m a v) b = Memory.read m b := by
  by_cases hv : v = resetByte a
  · simp [Memory.write, hv, read_filter_other m h]
  · simp [Memory.write, hv, read_insert_other _ _ h, read_filter_other m h]

/-- A store of bytes leaves every address outside them alone. -/
theorem read_writeBytes_outside (m : List Host.Cell) (a : Nat) (bs : List Byte) {b : Nat}
    (h : b < a ∨ a + bs.length ≤ b) : Memory.read (Memory.writeBytes m a bs) b = Memory.read m b := by
  induction bs generalizing m a with
  | nil => rfl
  | cons v vs ih =>
    simp only [List.length_cons] at h
    rw [Memory.writeBytes, ih _ _ (by omega), read_write_other _ _ (by omega)]

/-- A store of bytes puts byte `k` of them at `a + k`. -/
theorem read_writeBytes_inside (m : List Host.Cell) (a : Nat) (bs : List Byte) {k : Nat} (h : k < bs.length) :
    Memory.read (Memory.writeBytes m a bs) (a + k) = bs[k] := by
  induction bs generalizing m a k with
  | nil => simp at h
  | cons v vs ih =>
    cases k with
    | zero => simp [Memory.writeBytes, read_writeBytes_outside]
    | succ k =>
      have := ih (Memory.write m a v) (a + 1) (k := k) (by simpa using h)
      simpa [Memory.writeBytes, Nat.add_assoc, Nat.add_comm 1] using this

theorem mem_insert {m : List Host.Cell} {a : Nat} {v : Byte} {c : Host.Cell} :
    c ∈ Memory.insert a v m ↔ c = (a, v) ∨ c ∈ m := by
  induction m with
  | nil => simp [Memory.insert]
  | cons d m ih =>
    by_cases h : a < d.1
    · simp [Memory.insert, h]
    · simp [Memory.insert, h, ih]; tauto

theorem pairwise_insert {m : List Host.Cell} {a : Nat} {v : Byte} (hm : m.Pairwise (fun c d => c.1 < d.1))
    (ha : ∀ c ∈ m, c.1 ≠ a) : (Memory.insert a v m).Pairwise (fun c d => c.1 < d.1) := by
  induction m with
  | nil => simp [Memory.insert]
  | cons d m ih =>
    rw [List.pairwise_cons] at hm
    by_cases h : a < d.1
    · simp only [Memory.insert, h, if_true, List.pairwise_cons]
      refine ⟨fun c hc => ?_, hm⟩
      rcases List.mem_cons.1 hc with rfl | hc
      · exact h
      · exact h.trans (hm.1 c hc)
    · simp only [Memory.insert, h, if_false, List.pairwise_cons]
      refine ⟨fun c hc => ?_, ih hm.2 (fun c hc => ha c (by simp [hc]))⟩
      have hd : d.1 ≠ a := ha d (by simp)
      rcases mem_insert.1 hc with rfl | hc
      · simp; omega
      · exact hm.1 c hc

/-- A write inside 0x000-0xFFF keeps the canonical form. -/
theorem write_wf {m : List Host.Cell} (hm : Memory.wf m) {a : Nat} (ha : a < Config.memSize) (v : Byte) :
    Memory.wf (Memory.write m a v) := by
  have hf : Memory.wf (m.filter (fun c => c.1 != a)) :=
    ⟨hm.1.filter _, fun c hc => hm.2 c (List.mem_filter.1 hc).1⟩
  by_cases hv : v = resetByte a
  · simpa [Memory.write, hv] using hf
  · simp only [Memory.write, hv, if_false]
    refine ⟨pairwise_insert hf.1 (fun c hc => by simpa using (List.mem_filter.1 hc).2), fun c hc => ?_⟩
    rcases mem_insert.1 hc with rfl | hc
    · exact ⟨ha, hv⟩
    · exact hf.2 c hc

/-- A store of bytes inside 0x000-0xFFF keeps the canonical form. -/
theorem writeBytes_wf {m : List Host.Cell} (hm : Memory.wf m) {a : Nat} (bs : List Byte)
    (ha : a + bs.length ≤ Config.memSize) : Memory.wf (Memory.writeBytes m a bs) := by
  induction bs generalizing m a with
  | nil => exact hm
  | cons v vs ih =>
    simp only [List.length_cons] at ha
    exact ih (write_wf hm (by omega) v) (by omega)

end Memory

namespace State

@[simp] theorem byteAt_setReg (s : State) (x : Reg) (v : Byte) (a : Nat) : (s.setReg x v).byteAt a = s.byteAt a := rfl
@[simp] theorem byteAt_setPC (s : State) (v : Word) (a : Nat) : (s.setPC v).byteAt a = s.byteAt a := rfl
@[simp] theorem byteAt_advance (s : State) (a : Nat) : s.advance.byteAt a = s.byteAt a := rfl
@[simp] theorem byteAt_setHost (s : State) (ts : List Transaction) (a : Nat) : (s.setHost ts).byteAt a = s.byteAt a := rfl

/-- A store leaves every byte outside the stored ones alone. -/
theorem byteAt_store_outside (s : State) (a : Nat) (bs : List Byte) {b : Nat} (h : b < a ∨ a + bs.length ≤ b) :
    (s.store a bs).byteAt b = s.byteAt b := Memory.read_writeBytes_outside _ _ _ h

/-- A store puts byte `k` of the stored ones at `a + k`. -/
theorem byteAt_store_inside (s : State) (a : Nat) (bs : List Byte) {k : Nat} (h : k < bs.length) :
    (s.store a bs).byteAt (a + k) = bs[k] := Memory.read_writeBytes_inside _ _ _ h

/-- Memory after reset: every byte at its reset contents. -/
@[simp] theorem byteAt_reset (a : Nat) : State.reset.byteAt a = resetByte a := rfl

/-- The reset memory is in canonical form. -/
theorem reset_mem_wf : Memory.wf State.reset.mem := ⟨.nil, by simp [State.reset]⟩

end State

end Sys2Proof.Machine
end

