-- ==== Sys2Proof/Laws/Ops.lean ====
section
/-! SUPPORT. What each shared operation over registers, operands and outcomes does, said once. -/

namespace Sys2Proof.Machine

open Sys2Proof

/-! ### Registers -/

namespace State

/-- A register after a register write (00_scope R9). -/
theorem reg_setReg (s : State) (x r : Reg) (v : Byte) : (s.setReg x v).reg r = if x = r then v else s.reg r := by
  simp only [State.reg, State.setReg, Fin.getElem_fin, Vector.getElem_set, Fin.ext_iff]

@[simp] theorem reg_setReg_self (s : State) (x : Reg) (v : Byte) : (s.setReg x v).reg x = v := by
  simp [reg_setReg]

theorem reg_setReg_other (s : State) {x r : Reg} (v : Byte) (h : r ≠ x) : (s.setReg x v).reg r = s.reg r := by
  simp [reg_setReg, h.symm]

@[simp] theorem reg_setI (s : State) (v : Word) (r : Reg) : (s.setI v).reg r = s.reg r := rfl
@[simp] theorem reg_setPC (s : State) (v : Word) (r : Reg) : (s.setPC v).reg r = s.reg r := rfl
@[simp] theorem reg_advance (s : State) (r : Reg) : s.advance.reg r = s.reg r := rfl
@[simp] theorem reg_setStack (s : State) (v : List Word) (r : Reg) : (s.setStack v).reg r = s.reg r := rfl
@[simp] theorem reg_setDT (s : State) (v : Byte) (r : Reg) : (s.setDT v).reg r = s.reg r := rfl
@[simp] theorem reg_setST (s : State) (v : Byte) (r : Reg) : (s.setST v).reg r = s.reg r := rfl
@[simp] theorem reg_setFB (s : State) (g : Grid) (r : Reg) : (s.setFB g).reg r = s.reg r := rfl
@[simp] theorem reg_setHost (s : State) (ts : List Transaction) (r : Reg) : (s.setHost ts).reg r = s.reg r := rfl
@[simp] theorem reg_countDraw (s : State) (r : Reg) : s.countDraw.reg r = s.reg r := rfl
@[simp] theorem reg_store (s : State) (a : Nat) (bs : List Byte) (r : Reg) : (s.store a bs).reg r = s.reg r := rfl

/-- `setRegs` is a change of V alone. -/
theorem setRegs_eq (s : State) (x : Nat) (vs : List Byte) : s.setRegs x vs = { s with V := (s.setRegs x vs).V } := by
  induction vs generalizing s x with
  | nil => rfl
  | cons v vs ih => rw [State.setRegs, ih]; rfl

/-- The registers after `V[x + k] <- vs[k]` for every `k`, inside V0..VF (42_memory_index R265). -/
theorem reg_setRegs (s : State) (x : Nat) (vs : List Byte) (h : x + vs.length ≤ 16) (r : Reg) :
    (s.setRegs x vs).reg r =
      if hr : x ≤ r.val ∧ r.val < x + vs.length then vs[r.val - x]'(by omega) else s.reg r := by
  induction vs generalizing s x with
  | nil => rw [dif_neg (by simp)]; rfl
  | cons v vs ih =>
    simp only [List.length_cons] at h ⊢
    rw [State.setRegs, ih _ _ (by omega)]
    have hx : (Fin.ofNat 16 x).val = x := Nat.mod_eq_of_lt (by omega)
    by_cases h1 : x + 1 ≤ r.val ∧ r.val < x + 1 + vs.length
    · rw [dif_pos h1, dif_pos (by omega)]
      have : r.val - x = r.val - (x + 1) + 1 := by omega
      simp [this]
    · rw [dif_neg h1, reg_setReg]
      by_cases h2 : r.val = x
      · rw [if_pos (Fin.ext (by omega)), dif_pos (by omega)]
        simp [h2]
      · rw [if_neg (fun e => h2 (by rw [← e]; exact hx)), dif_neg (by omega)]

end State

/-! ### Keys -/

/-- The key FX0A latches: held, and no lower one is (44_timers_input R331). -/
theorem State.firstKey_eq_some {s : State} {k : Key} :
    s.firstKey = some k ↔ s.key k = true ∧ ∀ j < k, s.key j = false := by
  unfold State.firstKey
  constructor
  · intro h
    obtain ⟨hk, as, bs, hl, has⟩ := List.find?_eq_some_iff_append.1 h
    refine ⟨hk, fun j hj => ?_⟩
    have hsorted : (List.finRange 16).Pairwise (· < ·) := List.pairwise_lt_finRange 16
    have hmem : j ∈ as ++ k :: bs := hl ▸ List.mem_finRange j
    rcases List.mem_append.1 hmem with hj' | hj'
    · simpa using has j hj'
    · rw [hl] at hsorted
      have hbs := (List.pairwise_append.1 hsorted).2.1
      rcases List.mem_cons.1 hj' with rfl | hj'
      · exact absurd hj (lt_irrefl _)
      · exact absurd ((List.pairwise_cons.1 hbs).1 j hj') (not_lt.2 hj.le)
  · rintro ⟨hk, hlow⟩
    cases hf : (List.finRange 16).find? s.key with
    | none => exact absurd hk (by simpa using List.find?_eq_none.1 hf k (List.mem_finRange k))
    | some j =>
      obtain ⟨hj, as, bs, hl, has⟩ := List.find?_eq_some_iff_append.1 hf
      have hsorted : (List.finRange 16).Pairwise (· < ·) := List.pairwise_lt_finRange 16
      have hmem : k ∈ as ++ j :: bs := hl ▸ List.mem_finRange k
      rcases List.mem_append.1 hmem with h | h
      · exact absurd hk (by simpa using has k h)
      · rcases List.mem_cons.1 h with rfl | h
        · rfl
        · rw [hl] at hsorted
          have := (List.pairwise_cons.1 (List.pairwise_append.1 hsorted).2.1).1 k h
          exact absurd (hlow j this) (by simp [hj])

/-- No key is latched exactly when none is held (44_timers_input R332). -/
theorem State.firstKey_eq_none {s : State} : s.firstKey = none ↔ ∀ k, s.key k = false := by
  simp [State.firstKey, List.find?_eq_none]

/-! ### Outcomes -/

/-- The range check: it lets `k` through, or answers the fault of its own condition (42_memory_index R266). -/
theorem checkRange_cases (op : Word) (n : Nat) (s : State) (k : Outcome) :
    ((n = 0 ∨ s.I.toNat + n ≤ 0x1000) ∧ checkRange op n s k = k) ∨
    (0 < n ∧ 0x1000 < s.I.toNat + n ∧
      checkRange op n s k = .fault (.outOfBounds s.PC (some op) (max s.I.toNat 0x1000))) := by
  unfold checkRange
  split
  · rename_i h; exact .inr ⟨h.1, h.2, rfl⟩
  · rename_i h; exact .inl ⟨by simp only [Config.memSize] at h; omega, rfl⟩

/-- A digit operand: it hands the digit to `k`, or answers OperandRange (42_memory_index R262). -/
theorem nibbleOperand_cases (op : Word) (v : Byte) (s : State) (k : Fin 16 → Outcome) :
    (∃ d : Fin 16, d.val = v.toNat ∧ nibbleOperand op v s k = k d) ∨
    (0x0F < v.toNat ∧ nibbleOperand op v s k = .fault (.operandRange s.PC op v)) := by
  unfold nibbleOperand
  split
  · exact .inl ⟨_, rfl, rfl⟩
  · exact .inr ⟨by omega, rfl⟩

/-- A skip answers a next state that differs in PC alone (30_encoding R106). -/
theorem skipIf_eq (c : Bool) (s : State) : skipIf c s = .next (s.setPC (if c then s.PC + 4 else s.PC + 2)) := rfl

/-- A result without a flag answers a next state (41_data R230). -/
theorem resultOnly_eq (x : Reg) (v : Byte) (s : State) : resultOnly x v s = .next (s.setReg x v).advance := rfl

/-- A result with a flag answers a next state, the flag written last (41_data R250). -/
theorem resultAndFlag_eq (x : Reg) (v : Byte) (f : Bool) (s : State) :
    resultAndFlag x v f s = .next ((s.setReg x v).setReg flagReg (flagByte f)).advance := rfl

/-- The host's list of transactions shrinks and nothing else changes. -/
theorem popHost_eq_next {rest : List Transaction} {o : Outcome} {t : State} (h : popHost rest o = .next t) :
    ∃ u, o = .next u ∧ t = u.setHost rest := by
  cases o with
  | next u => exact ⟨u, rfl, by simpa [popHost] using h.symm⟩
  | fault f => simp [popHost] at h
  | refused r => simp [popHost] at h

/-- An instruction behind a range check completes only inside memory (42_memory_index R266). -/
theorem checkRange_eq_next {op : Word} {n : Nat} {s k t : State} (h : checkRange op n s (.next k) = .next t) :
    k = t ∧ (n = 0 ∨ s.I.toNat + n ≤ 0x1000) := by
  rcases checkRange_cases op n s (.next k) with ⟨hr, e⟩ | ⟨_, _, e⟩ <;> rw [e] at h
  · exact ⟨by simpa using h, hr⟩
  · cases h

/-- Inside memory the range check does nothing (42_memory_index R266). -/
theorem checkRange_inside (op : Word) {n : Nat} {s : State} (k : Outcome) (h : n = 0 ∨ s.I.toNat + n ≤ 0x1000) :
    checkRange op n s k = k :=
  if_neg (by simp only [Config.memSize]; omega)

/-- Past 0xFFF the range check raises OutOfBounds (42_memory_index R266). -/
theorem checkRange_outside (op : Word) {n : Nat} {s : State} (k : Outcome) (h0 : 0 < n)
    (h : 0x1000 < s.I.toNat + n) :
    checkRange op n s k = .fault (.outOfBounds s.PC (some op) (max s.I.toNat 0x1000)) :=
  if_pos ⟨h0, h⟩

/-- An instruction behind a digit operand completes only on a digit (42_memory_index R262). -/
theorem nibbleOperand_eq_next {op : Word} {v : Byte} {s t : State} {k : Fin 16 → Outcome}
    (h : nibbleOperand op v s k = .next t) : ∃ d : Fin 16, d.val = v.toNat ∧ k d = .next t := by
  rcases nibbleOperand_cases op v s k with ⟨d, hd, e⟩ | ⟨_, e⟩ <;> rw [e] at h
  · exact ⟨d, hd, h⟩
  · cases h

/-- A digit operand that holds the digit `d` (42_memory_index R262). -/
theorem nibbleOperand_digit (op : Word) {v : Byte} (s : State) (k : Fin 16 → Outcome) {d : Fin 16}
    (h : v.toNat = d.val) : nibbleOperand op v s k = k d := by
  unfold nibbleOperand
  rw [dif_pos (by omega)]
  exact congrArg k (Fin.ext h)

/-- A digit operand above 0x0F (42_memory_index R262). -/
theorem nibbleOperand_large (op : Word) {v : Byte} (s : State) (k : Fin 16 → Outcome) (h : 0x0F < v.toNat) :
    nibbleOperand op v s k = .fault (.operandRange s.PC op v) :=
  dif_neg (by omega)

/-! ### Values -/

theorem addrOperand_toNat (nnn : Addr12) : (addrOperand nnn).toNat = nnn.toNat := by
  simp only [addrOperand, BitVec.toNat_setWidth]; have := nnn.isLt; omega

theorem zext16_toNat (v : Byte) : (zext16 v).toNat = v.toNat := by
  simp only [zext16, BitVec.toNat_setWidth]; have := v.isLt; omega

theorem flagByte_toNat (b : Bool) : (flagByte b).toNat = if b = true then 1 else 0 := by cases b <;> rfl

/-- `next` does not wrap from a PC that fetches (30_encoding R107). -/
theorem State.nextPC_toNat {s : State} (h : s.PC.toNat ≤ 0xFFE) : s.nextPC.toNat = s.PC.toNat + 2 := by
  rw [State.nextPC, BitVec.toNat_add]; simp; omega

/-- `skip` does not wrap from a PC that fetches (30_encoding R107). -/
theorem State.skipPC_toNat {s : State} (h : s.PC.toNat ≤ 0xFFE) : s.skipPC.toNat = s.PC.toNat + 4 := by
  rw [State.skipPC, BitVec.toNat_add]; simp; omega

end Sys2Proof.Machine
end

