-- ==== Sys2Proof/Laws/Frames.lean ====
section
/-! SUPPORT. How frames combine (Safety.OnlyChanges), and what the step around an instruction does. -/

namespace Sys2Proof.Safety

open Sys2Proof Sys2Proof.Machine

/-- A frame may list more parts than it needs. -/
theorem OnlyChanges.mono {ps qs : List Part} {s t : State} (h : OnlyChanges ps s t) (hs : ps ⊆ qs) :
    OnlyChanges qs s t := fun p hp => h p (fun hq => hp (hs hq))

/-- Moving PC on keeps a frame that lists PC. -/
theorem OnlyChanges.advance {ps : List Part} {s t : State} (h : OnlyChanges ps s t) (hp : Part.PC ∈ ps) :
    OnlyChanges ps s t.advance := by
  intro p hp'
  have := h p hp'
  cases p <;> simp only [Agree] at * <;> first | exact this | exact absurd hp hp'

/-- A store changes memory alone. -/
theorem OnlyChanges.store (s : State) (a : Nat) (bs : List Byte) : OnlyChanges [.mem] s (s.store a bs) := by
  intro p hp
  cases p <;> simp only [Agree, List.mem_singleton, not_true] at hp ⊢ <;> intros <;> rfl

/-- Loading registers changes V alone. -/
theorem OnlyChanges.setRegs (s : State) (x : Nat) (vs : List Byte) : OnlyChanges [.V] s (s.setRegs x vs) := by
  rw [State.setRegs_eq]
  intro p hp
  cases p <;> simp only [Agree, List.mem_singleton, not_true] at hp ⊢ <;> intros <;> first | rfl | trivial

end Sys2Proof.Safety

namespace Sys2Proof.Machine

open Sys2Proof

/-- The step at a PC that fetches a known word (30_encoding R112). -/
theorem cpuStep_known {p : Config.UnknownOpcodePolicy} {s : State} {i : Instr} (hpc : s.PC.toNat ≤ 0xFFE)
    (h : decodeWord s.fetchWord = .ok i) : cpuStep p s = exec i s := by
  unfold cpuStep
  rw [if_neg (by simp only [Config.memSize]; omega), h]

/-- The step at a PC that fetches an unknown word (44_timers_input R340). -/
theorem cpuStep_unknown {p : Config.UnknownOpcodePolicy} {s : State} {e : DecodeError} (hpc : s.PC.toNat ≤ 0xFFE)
    (h : decodeWord s.fetchWord = .error e) : cpuStep p s = unknownWord p s.fetchWord s := by
  unfold cpuStep
  rw [if_neg (by simp only [Config.memSize]; omega), h]

/-- The step at a PC above 0xFFE (30_encoding R101). -/
theorem cpuStep_outside {p : Config.UnknownOpcodePolicy} {s : State} (hpc : 0xFFE < s.PC.toNat) :
    cpuStep p s = .fault (.outOfBounds s.PC none (max s.PC.toNat 0x1000)) := by
  unfold cpuStep
  rw [if_pos (by simp only [Config.memSize]; omega)]
  simp only [raise, State.fetchFaultAddr, Config.memSize]
  congr 2
  split <;> omega

/-- One count of a timer (60_exceptions R420). -/
theorem countDown_toNat (v : Byte) : (countDown v).toNat = v.toNat - 1 := by
  unfold countDown
  split
  · rename_i h; subst h; rfl
  · rename_i h
    have : v.toNat ≠ 0 := fun e => h (BitVec.eq_of_toNat_eq e)
    rw [BitVec.toNat_sub]; have := v.isLt; simp; omega

end Sys2Proof.Machine
end

