-- ==== Sys2Proof/Laws/Graphics.lean ====
section
/-! SUPPORT. The laws of the XOR-write unit: one pixel, a list of pixels, the pixels of a sprite. -/

namespace Sys2Proof.Machine

open Sys2Proof

namespace Grid

/-- Inverting one pixel leaves every other one alone (43_graphics R292). -/
theorem pixel_flip (g : Grid) (x x' : Col) (y y' : Row) :
    (g.flip x y).pixel x' y' = (g.pixel x' y' ^^ decide ((x', y') = (x, y))) := by
  simp only [Grid.pixel, Grid.flip, Fin.getElem_fin, Vector.getElem_set]
  by_cases hy : y = y'
  · subst hy
    by_cases hx : x = x'
    · subst hx; simp
    · have hx' : ¬ x.val = x'.val := fun e => hx (Fin.ext e)
      simp [hx', Ne.symm hx]
  · have hy' : ¬ y.val = y'.val := fun e => hy (Fin.ext e)
    simp [hy', Ne.symm hy]

/-- Every pixel of the cleared frame buffer is false (43_graphics R290). -/
@[simp] theorem pixel_clear (x : Col) (y : Row) : clearGrid.pixel x y = false := by
  simp [Grid.pixel, clearGrid]

/-- Two frame buffers with the same pixels are the same. -/
theorem ext_pixel {g h : Grid} (e : ∀ x y, g.pixel x y = h.pixel x y) : g = h := by
  apply Vector.ext; intro y hy
  apply Vector.ext; intro x hx
  exact e ⟨x, hx⟩ ⟨y, hy⟩

end Grid

/-- The XOR-write unit over distinct pixels: exactly those are inverted (43_graphics R291, R295). -/
theorem pixel_foldl_xorPixel (ps : List (Col × Row)) (hd : ps.Nodup) (acc : Grid × Bool) (x : Col) (y : Row) :
    (ps.foldl xorPixel acc).1.pixel x y = (acc.1.pixel x y ^^ decide ((x, y) ∈ ps)) := by
  induction ps generalizing acc with
  | nil => simp
  | cons p ps ih =>
    rw [List.nodup_cons] at hd
    rw [List.foldl_cons, ih hd.2]
    simp only [xorPixel, Grid.pixel_flip]
    by_cases hp : (x, y) = (p.1, p.2)
    · simp [hp, hd.1]
    · have hp' : ¬ (x, y) = p := hp
      simp [hp']

/-- The XOR-write unit over distinct pixels reports whether one of them was true (43_graphics R294). -/
theorem collision_foldl_xorPixel (ps : List (Col × Row)) (hd : ps.Nodup) (acc : Grid × Bool) :
    (ps.foldl xorPixel acc).2 = (acc.2 || ps.any (fun p => acc.1.pixel p.1 p.2)) := by
  induction ps generalizing acc with
  | nil => simp
  | cons p ps ih =>
    rw [List.nodup_cons] at hd
    rw [List.foldl_cons, ih hd.2]
    simp only [xorPixel, List.any_cons, Bool.or_assoc, Grid.pixel_flip]
    congr 2
    rw [Bool.eq_iff_iff, List.any_eq_true, List.any_eq_true]
    refine exists_congr fun q => and_congr_right fun hq => ?_
    have hqp : q ≠ p := fun e => hd.1 (e ▸ hq)
    simp [hqp]

/-- The pixels of a sprite: row `r`, column `c` where bit `7 - c` of byte `r` is 1, wrapped (43_graphics R291-R293). -/
theorem mem_spritePixels {x0 y0 : Nat} {bytes : List Byte} {x : Col} {y : Row} :
    (x, y) ∈ spritePixels x0 y0 bytes ↔
      ∃ r c, ∃ h : r < bytes.length, c < 8 ∧ bytes[r].getLsbD (7 - c) = true ∧
        x.val = (x0 + c) % 64 ∧ y.val = (y0 + r) % 32 := by
  simp only [spritePixels, spriteRow, List.mem_flatMap, List.mem_map, List.mem_filter, List.mem_range, Prod.exists,
    List.mem_zipIdx_iff_getElem?, Prod.mk.injEq, Fin.ext_iff, Fin.val_ofNat]
  constructor
  · rintro ⟨b, r, hb, c, ⟨hc, hbit⟩, hx, hy⟩
    obtain ⟨hr, rfl⟩ := List.getElem?_eq_some_iff.1 hb
    exact ⟨r, c, hr, hc, hbit, hx.symm, hy.symm⟩
  · rintro ⟨r, c, hr, hc, hbit, hx, hy⟩
    exact ⟨bytes[r], r, List.getElem?_eq_getElem hr, c, ⟨hc, hbit⟩, hx.symm, hy.symm⟩

/-- No two bits of a sprite of at most 32 rows map to one pixel (43_graphics R295). -/
theorem spritePixels_nodup (x0 y0 : Nat) (bytes : List Byte) (h : bytes.length ≤ 32) :
    (spritePixels x0 y0 bytes).Nodup := by
  unfold spritePixels
  rw [List.nodup_flatMap]
  constructor
  · rintro ⟨b, r⟩ _
    refine List.Nodup.map_on ?_ (List.nodup_range.filter _)
    intro c hc d hd e
    have hc8 := List.mem_range.1 (List.mem_filter.1 hc).1
    have hd8 := List.mem_range.1 (List.mem_filter.1 hd).1
    have := congrArg (fun p : Col × Row => p.1.val) e
    simp only [Fin.val_ofNat] at this
    omega
  · rw [List.pairwise_iff_getElem]
    intro i j hi hj hij
    simp only [List.length_zipIdx] at hi hj
    simp only [Function.onFun, List.getElem_zipIdx, Nat.zero_add, List.disjoint_left, spriteRow, List.mem_map, not_exists,
      not_and, Prod.forall]
    rintro x y ⟨c, _, e⟩ d _ e'
    have h1 := congrArg (fun p : Col × Row => p.2.val) e
    have h2 := congrArg (fun p : Col × Row => p.2.val) e'
    simp only [Fin.val_ofNat] at h1 h2
    omega

/-- The bytes at I are `n` many. -/
@[simp] theorem State.length_bytesAtI (s : State) (n : Nat) : (s.bytesAtI n).length = n := by
  simp [State.bytesAtI]

/-- Byte `k` of the bytes at I (42_memory_index R265). -/
@[simp] theorem State.getElem_bytesAtI (s : State) (n k : Nat) (h : k < (s.bytesAtI n).length) :
    (s.bytesAtI n)[k] = s.byteAt (s.I.toNat + k) := by
  simp [State.bytesAtI, State.addrI]

end Sys2Proof.Machine
end

