-- ==== Sys2Proof/Laws/PerInstr.lean ====
section
/-! SUPPORT. The opcode table as a list of masks and patterns, and one lemma for each instruction: its word is in its own
row of the table. -/

namespace Sys2Proof.Laws

open Sys2Proof

/-- A row of spec/opcode_table.json. -/
structure OpRow where
  mnemonic : String
  mask : Word
  pattern : Word
  deriving DecidableEq, Repr

/-- The row of an instruction (spec/opcode_table.json, "mask" and "match"). -/
def rowOf : Instr → OpRow
  | .sys _ => ⟨"SYS", 0xF000, 0x0000⟩
  | .cls => ⟨"CLS", 0xFFFF, 0x00E0⟩
  | .ret => ⟨"RET", 0xFFFF, 0x00EE⟩
  | .jp _ => ⟨"JP", 0xF000, 0x1000⟩
  | .call _ => ⟨"CALL", 0xF000, 0x2000⟩
  | .seImm _ _ => ⟨"SE_IMM", 0xF000, 0x3000⟩
  | .sneImm _ _ => ⟨"SNE_IMM", 0xF000, 0x4000⟩
  | .seReg _ _ => ⟨"SE_REG", 0xF00F, 0x5000⟩
  | .ldImm _ _ => ⟨"LD_IMM", 0xF000, 0x6000⟩
  | .addImm _ _ => ⟨"ADD_IMM", 0xF000, 0x7000⟩
  | .ldReg _ _ => ⟨"LD_REG", 0xF00F, 0x8000⟩
  | .orReg _ _ => ⟨"OR", 0xF00F, 0x8001⟩
  | .andReg _ _ => ⟨"AND", 0xF00F, 0x8002⟩
  | .xorReg _ _ => ⟨"XOR", 0xF00F, 0x8003⟩
  | .addReg _ _ => ⟨"ADD_REG", 0xF00F, 0x8004⟩
  | .sub _ _ => ⟨"SUB", 0xF00F, 0x8005⟩
  | .shr _ _ => ⟨"SHR", 0xF00F, 0x8006⟩
  | .subn _ _ => ⟨"SUBN", 0xF00F, 0x8007⟩
  | .shl _ _ => ⟨"SHL", 0xF00F, 0x800E⟩
  | .sneReg _ _ => ⟨"SNE_REG", 0xF00F, 0x9000⟩
  | .ldI _ => ⟨"LD_I", 0xF000, 0xA000⟩
  | .jpV0 _ => ⟨"JP_V0", 0xF000, 0xB000⟩
  | .rnd _ _ => ⟨"RND", 0xF000, 0xC000⟩
  | .drw _ _ _ => ⟨"DRW", 0xF000, 0xD000⟩
  | .skp _ => ⟨"SKP", 0xF0FF, 0xE09E⟩
  | .sknp _ => ⟨"SKNP", 0xF0FF, 0xE0A1⟩
  | .ldVxDt _ => ⟨"LD_VX_DT", 0xF0FF, 0xF007⟩
  | .ldVxK _ => ⟨"LD_VX_K", 0xF0FF, 0xF00A⟩
  | .ldDtVx _ => ⟨"LD_DT_VX", 0xF0FF, 0xF015⟩
  | .ldStVx _ => ⟨"LD_ST_VX", 0xF0FF, 0xF018⟩
  | .addI _ => ⟨"ADD_I", 0xF0FF, 0xF01E⟩
  | .ldF _ => ⟨"LD_F", 0xF0FF, 0xF029⟩
  | .ldB _ => ⟨"LD_B", 0xF0FF, 0xF033⟩
  | .ldMemStore _ => ⟨"LD_MEM_STORE", 0xF0FF, 0xF055⟩
  | .ldMemLoad _ => ⟨"LD_MEM_LOAD", 0xF0FF, 0xF065⟩

/-- The rows with no fixed word, in the table's order; CLS and RET, which take priority over SYS, are left out. -/
def patternRows : List OpRow :=
  [rowOf (.sys 0), rowOf (.jp 0), rowOf (.call 0), rowOf (.seImm 0 0), rowOf (.sneImm 0 0), rowOf (.seReg 0 0), rowOf (.ldImm 0 0), rowOf (.addImm 0 0)] ++
  [rowOf (.ldReg 0 0), rowOf (.orReg 0 0), rowOf (.andReg 0 0), rowOf (.xorReg 0 0), rowOf (.addReg 0 0), rowOf (.sub 0 0), rowOf (.shr 0 0), rowOf (.subn 0 0)] ++
  [rowOf (.shl 0 0), rowOf (.sneReg 0 0), rowOf (.ldI 0), rowOf (.jpV0 0), rowOf (.rnd 0 0), rowOf (.drw 0 0 0), rowOf (.skp 0), rowOf (.sknp 0)] ++
  [rowOf (.ldVxDt 0), rowOf (.ldVxK 0), rowOf (.ldDtVx 0), rowOf (.ldStVx 0), rowOf (.addI 0), rowOf (.ldF 0), rowOf (.ldB 0), rowOf (.ldMemStore 0)] ++
  [rowOf (.ldMemLoad 0)]

/-- No word is in two of these rows: two rows differ in a bit that both masks look at (30_encoding R105). -/
theorem patternRows_disjoint :
    patternRows.Pairwise (fun a b => a.pattern &&& a.mask &&& b.mask ≠ b.pattern &&& a.mask &&& b.mask) := by
  decide

theorem wordNNN_row (m : BitVec 4) (nnn : Addr12) : wordNNN m nnn &&& 0xF000 = m ++ 0#12 := by
  show (m ++ nnn) &&& (0xF#4 ++ 0#12) = _
  rw [BitVec.and_append, BitVec.and_zero, show (0xF#4) = BitVec.allOnes 4 from rfl, BitVec.and_allOnes]

theorem wordXNN_row (m : BitVec 4) (x : Fin 16) (nn : Byte) : wordXNN m x nn &&& 0xF000 = m ++ 0#4 ++ 0#8 := by
  show (m ++ nibble x ++ nn) &&& (0xF#4 ++ 0#4 ++ 0#8) = _
  rw [BitVec.and_append, BitVec.and_append, BitVec.and_zero, BitVec.and_zero, show (0xF#4) = BitVec.allOnes 4 from rfl,
    BitVec.and_allOnes]

theorem wordXKK_row (m : BitVec 4) (x : Fin 16) (kk : Byte) : wordXNN m x kk &&& 0xF0FF = m ++ 0#4 ++ kk := by
  show (m ++ nibble x ++ kk) &&& (0xF#4 ++ 0#4 ++ 0xFF#8) = _
  rw [BitVec.and_append, BitVec.and_append, BitVec.and_zero, show (0xF#4) = BitVec.allOnes 4 from rfl,
    show (0xFF#8) = BitVec.allOnes 8 from rfl, BitVec.and_allOnes, BitVec.and_allOnes]

theorem wordXYN_row (m : BitVec 4) (x y n : Fin 16) : wordXYN m x y n &&& 0xF00F = m ++ 0#4 ++ 0#4 ++ nibble n := by
  show (m ++ nibble x ++ nibble y ++ nibble n) &&& (0xF#4 ++ 0#4 ++ 0#4 ++ 0xF#4) = m ++ 0#4 ++ 0#4 ++ nibble n
  rw [BitVec.and_append, BitVec.and_append, BitVec.and_append, BitVec.and_zero, BitVec.and_zero,
    show (0xF#4) = BitVec.allOnes 4 from rfl, BitVec.and_allOnes, BitVec.and_allOnes]

theorem wordDXYN_row (m : BitVec 4) (x y n : Fin 16) : wordXYN m x y n &&& 0xF000 = m ++ 0#4 ++ 0#4 ++ 0#4 := by
  show (m ++ nibble x ++ nibble y ++ nibble n) &&& (0xF#4 ++ 0#4 ++ 0#4 ++ 0#4) = m ++ 0#4 ++ 0#4 ++ 0#4
  rw [BitVec.and_append, BitVec.and_append, BitVec.and_append, BitVec.and_zero, BitVec.and_zero, BitVec.and_zero,
    show (0xF#4) = BitVec.allOnes 4 from rfl, BitVec.and_allOnes]

namespace RowMatch

/-- The word of the instruction is in the instruction's own row of the table. -/
def Statement (i : Instr) : Prop := encodeWord i &&& (rowOf i).mask = (rowOf i).pattern

theorem sys (nnn : Addr12) : Statement (.sys nnn) := wordNNN_row ..
theorem cls : Statement (.cls) := rfl
theorem ret : Statement (.ret) := rfl
theorem jp (nnn : Addr12) : Statement (.jp nnn) := wordNNN_row ..
theorem call (nnn : Addr12) : Statement (.call nnn) := wordNNN_row ..
theorem seImm (x : Reg) (nn : Byte) : Statement (.seImm x nn) := wordXNN_row ..
theorem sneImm (x : Reg) (nn : Byte) : Statement (.sneImm x nn) := wordXNN_row ..
theorem seReg (x y : Reg) : Statement (.seReg x y) := wordXYN_row ..
theorem ldImm (x : Reg) (nn : Byte) : Statement (.ldImm x nn) := wordXNN_row ..
theorem addImm (x : Reg) (nn : Byte) : Statement (.addImm x nn) := wordXNN_row ..
theorem ldReg (x y : Reg) : Statement (.ldReg x y) := wordXYN_row ..
theorem orReg (x y : Reg) : Statement (.orReg x y) := wordXYN_row ..
theorem andReg (x y : Reg) : Statement (.andReg x y) := wordXYN_row ..
theorem xorReg (x y : Reg) : Statement (.xorReg x y) := wordXYN_row ..
theorem addReg (x y : Reg) : Statement (.addReg x y) := wordXYN_row ..
theorem sub (x y : Reg) : Statement (.sub x y) := wordXYN_row ..
theorem shr (x y : Reg) : Statement (.shr x y) := wordXYN_row ..
theorem subn (x y : Reg) : Statement (.subn x y) := wordXYN_row ..
theorem shl (x y : Reg) : Statement (.shl x y) := wordXYN_row ..
theorem sneReg (x y : Reg) : Statement (.sneReg x y) := wordXYN_row ..
theorem ldI (nnn : Addr12) : Statement (.ldI nnn) := wordNNN_row ..
theorem jpV0 (nnn : Addr12) : Statement (.jpV0 nnn) := wordNNN_row ..
theorem rnd (x : Reg) (nn : Byte) : Statement (.rnd x nn) := wordXNN_row ..
theorem drw (x y : Reg) (n : RowCount) : Statement (.drw x y n) := wordDXYN_row ..
theorem skp (x : Reg) : Statement (.skp x) := wordXKK_row ..
theorem sknp (x : Reg) : Statement (.sknp x) := wordXKK_row ..
theorem ldVxDt (x : Reg) : Statement (.ldVxDt x) := wordXKK_row ..
theorem ldVxK (x : Reg) : Statement (.ldVxK x) := wordXKK_row ..
theorem ldDtVx (x : Reg) : Statement (.ldDtVx x) := wordXKK_row ..
theorem ldStVx (x : Reg) : Statement (.ldStVx x) := wordXKK_row ..
theorem addI (x : Reg) : Statement (.addI x) := wordXKK_row ..
theorem ldF (x : Reg) : Statement (.ldF x) := wordXKK_row ..
theorem ldB (x : Reg) : Statement (.ldB x) := wordXKK_row ..
theorem ldMemStore (x : Reg) : Statement (.ldMemStore x) := wordXKK_row ..
theorem ldMemLoad (x : Reg) : Statement (.ldMemLoad x) := wordXKK_row ..

end RowMatch

end Sys2Proof.Laws
end

