-- ==== Sys2Proof/Tests/Slice0.lean ====
section
/-! SUPPORT. Tests. Words are written out from the patterns of 30_encoding R105, expected results taken from
95_test_vectors (the vector's id stands beside each test). Then, for every obligation with hypotheses, a concrete state
and operands that meet them. -/

namespace Sys2Proof.Tests

open Sys2Proof Sys2Proof.Machine Sys2Proof.Safety

/-! ### Well-formedness -/

theorem test_wellFormed_refuses_sys_as_cls : ¬ WellFormed (.sys 0x0E0) := by decide
theorem test_wellFormed_refuses_sys_as_ret : ¬ WellFormed (.sys 0x0EE) := by decide
theorem test_wellFormed_admits_sys : WellFormed (.sys 0x000) ∧ WellFormed (.sys 0x0E1) ∧ WellFormed (.sys 0xFFF) := by decide

/-! ### Decoding, word by word -/

theorem test_decode_control :
    decodeWord 0x0FFF = .ok (.sys 0xFFF) ∧ decodeWord 0x00EE = .ok .ret ∧ decodeWord 0x1ABC = .ok (.jp 0xABC) ∧
    decodeWord 0x2DEF = .ok (.call 0xDEF) ∧ decodeWord 0xB50A = .ok (.jpV0 0x50A) ∧
    decodeWord 0x3142 = .ok (.seImm 1 0x42) ∧ decodeWord 0x4F43 = .ok (.sneImm 15 0x43) ∧
    decodeWord 0x5120 = .ok (.seReg 1 2) ∧ decodeWord 0x9BC0 = .ok (.sneReg 0xB 0xC) := by decide

theorem test_decode_data :
    decodeWord 0x6A7B = .ok (.ldImm 0xA 0x7B) ∧ decodeWord 0x7F01 = .ok (.addImm 15 0x01) ∧
    decodeWord 0x8120 = .ok (.ldReg 1 2) ∧ decodeWord 0x8121 = .ok (.orReg 1 2) ∧ decodeWord 0x8122 = .ok (.andReg 1 2) ∧
    decodeWord 0x8123 = .ok (.xorReg 1 2) ∧ decodeWord 0x8124 = .ok (.addReg 1 2) ∧ decodeWord 0x8125 = .ok (.sub 1 2) ∧
    decodeWord 0x8126 = .ok (.shr 1 2) ∧ decodeWord 0x8127 = .ok (.subn 1 2) ∧ decodeWord 0x812E = .ok (.shl 1 2) ∧
    decodeWord 0xC30F = .ok (.rnd 3 0x0F) := by decide

theorem test_decode_memory :
    decodeWord 0xA300 = .ok (.ldI 0x300) ∧ decodeWord 0xF21E = .ok (.addI 2) ∧ decodeWord 0xF229 = .ok (.ldF 2) ∧
    decodeWord 0xFA33 = .ok (.ldB 0xA) ∧ decodeWord 0xF155 = .ok (.ldMemStore 1) ∧
    decodeWord 0xF265 = .ok (.ldMemLoad 2) := by decide

theorem test_decode_graphics :
    decodeWord 0x00E0 = .ok .cls ∧ decodeWord 0xD125 = .ok (.drw 1 2 5) := by decide

theorem test_decode_timers_input :
    decodeWord 0xE49E = .ok (.skp 4) ∧ decodeWord 0xE5A1 = .ok (.sknp 5) ∧ decodeWord 0xF307 = .ok (.ldVxDt 3) ∧
    decodeWord 0xF10A = .ok (.ldVxK 1) ∧ decodeWord 0xF115 = .ok (.ldDtVx 1) ∧ decodeWord 0xF118 = .ok (.ldStVx 1) := by
  decide

/-- F5, F7. -/
theorem test_decode_unknown :
    decodeWord 0x5121 = .error (.unknown 0x5121) ∧ decodeWord 0x8AB8 = .error (.unknown 0x8AB8) ∧
    decodeWord 0x800F = .error (.unknown 0x800F) ∧ decodeWord 0xE0FF = .error (.unknown 0xE0FF) ∧
    decodeWord 0xF000 = .error (.unknown 0xF000) ∧ decodeWord 0xF0FF = .error (.unknown 0xF0FF) ∧
    decodeWord 0x9121 = .error (.unknown 0x9121) := by decide

theorem test_decode_short : decode [] = .error .truncated ∧ decode [0x60] = .error .truncated := by decide

/-- Big-endian, and the bytes that follow are left (30_encoding R100, R102). -/
theorem test_decode_bytes : decode [0x61, 0x07, 0xFF] = .ok (.ldImm 1 0x07, [0xFF]) := by decide

theorem test_encode :
    encode (.call 0x210) = [0x22, 0x10] ∧ encode (.drw 0xA 0xB 7) = [0xDA, 0xB7] ∧ encode .ret = [0x00, 0xEE] ∧
    encode (.shl 2 0) = [0x82, 0x0E] := by decide

theorem test_decodeTableWord : decodeTableWord 16 0x8AB4 = some (.addReg 0xA 0xB) ∧ decodeTableWord 16 0x5121 = none := by
  decide

/-! ### One step -/

/-- The reset state with some registers set. -/
def withRegs (rs : List (Reg × Byte)) : State := rs.foldl (fun s r => s.setReg r.1 r.2) State.reset

/-- The reset state with I and some registers set. -/
def withI (i : Word) (rs : List (Reg × Byte)) : State := (withRegs rs).setI i

/-- The step at `s` ends in a next state for which `p` holds. -/
def steps (s : State) (p : State → Bool) : Bool :=
  match step s with
  | .next t => p t
  | _ => false

/-- The step that runs the word `w` at `s` ends in a next state for which `p` holds. -/
def after (s : State) (w : Nat) (p : State → Bool) : Bool := steps (s.withFetchWord 16 w) p

/-- The fault of the step that runs the word `w` at `s`. -/
def faultAt (s : State) (w : Nat) : Option Fault :=
  match step (s.withFetchWord 16 w) with
  | .fault f => some f
  | _ => none

/-- F1: a fetch at the last address that fetches. -/
theorem test_fetch_last : after (State.reset.setPC 0xFFE) 0x602A (fun t => t.reg 0 == 0x2A && t.PC == 0x1000) := by decide
/-- F2, F3. -/
theorem test_fetch_outside :
    faultAt (State.reset.setPC 0x1000) 0 = some (.outOfBounds 0x1000 none 0x1000) ∧
    faultAt (State.reset.setPC 0xFFF) 0 = some (.outOfBounds 0xFFF none 0x1000) := by decide
/-- F4: an odd PC. -/
theorem test_fetch_odd : after (State.reset.setPC 0x201) 0x6107 (fun t => t.reg 1 == 0x07 && t.PC == 0x203) := by decide
/-- F5, F6: both policies. -/
theorem test_unknown :
    faultAt State.reset 0x5121 = some (.unknownOpcode 0x200 0x5121) ∧
    stepStatus .noOpAdvance (State.reset.withFetchWord 16 0x5121) = .executed := by decide

/-- F9, F10. -/
theorem test_sys : after State.reset 0x0000 (·.PC == 0x202) ∧ after State.reset 0x0FFF (·.PC == 0x202) := by decide
/-- C1. -/
theorem test_jp : after State.reset 0x1ABC (·.PC == 0xABC) := by decide
/-- C8. -/
theorem test_call_last : after (State.reset.setPC 0xFFE) 0x2300 (fun t => t.S == [0x1000] && t.PC == 0x300) := by decide
/-- C7. -/
theorem test_call_overflow :
    faultAt (State.reset.setStack (.replicate 16 0x202)) 0x2400 = some (.stackOverflow 0x200 0x2400) := by decide
/-- C4, C5. -/
theorem test_ret :
    after (State.reset.setStack [0x300, 0x206]) 0x00EE (fun t => t.S == [0x300] && t.PC == 0x206) ∧
    faultAt State.reset 0x00EE = some (.stackUnderflow 0x200 0x00EE) := by decide
/-- C10, C11. -/
theorem test_jpV0 :
    after (withRegs [(0, 0xFF)]) 0xBF80 (·.PC == 0x107F) ∧ after (withRegs [(5, 0x0A)]) 0xB50A (·.PC == 0x50A) := by decide
/-- C12, C13. -/
theorem test_seImm :
    after (withRegs [(3, 0x42)]) 0x3342 (·.PC == 0x204) ∧ after (withRegs [(3, 0x41)]) 0x3342 (·.PC == 0x202) := by decide
/-- C14, C15. -/
theorem test_sneImm :
    after (withRegs [(3, 0x41)]) 0x4342 (·.PC == 0x204) ∧ after (withRegs [(3, 0x42)]) 0x4342 (·.PC == 0x202) := by decide
/-- C16, C17. -/
theorem test_seReg :
    after (withRegs [(1, 0x10), (2, 0x10)]) 0x5120 (·.PC == 0x204) ∧
    after (withRegs [(1, 0x10), (2, 0x11)]) 0x5120 (·.PC == 0x202) := by decide
/-- C18, C20. -/
theorem test_sneReg :
    after (withRegs [(1, 0x10), (2, 0x11)]) 0x9120 (·.PC == 0x204) ∧ after (withRegs [(1, 0x10)]) 0x9110 (·.PC == 0x202) := by
  decide

/-- D1. -/
theorem test_ldImm : after State.reset 0x6A7B (fun t => t.reg 0xA == 0x7B && t.PC == 0x202) := by decide
/-- S2a, D3. -/
theorem test_addImm :
    after (withRegs [(3, 0xFF), (15, 0x5A)]) 0x7301 (fun t => t.reg 3 == 0x00 && t.reg 15 == 0x5A) ∧
    after (withRegs [(15, 0xFF)]) 0x7F01 (·.reg 15 == 0x00) := by decide
/-- D6. -/
theorem test_ldReg : after (withRegs [(1, 0x77)]) 0x8F10 (fun t => t.reg 15 == 0x77 && t.reg 1 == 0x77) := by decide
/-- D7: VF is not written. -/
theorem test_or :
    after (withRegs [(0, 0xF0), (1, 0x0F), (15, 0x01)]) 0x8011 (fun t => t.reg 0 == 0xFF && t.reg 15 == 0x01) := by decide
/-- D8. -/
theorem test_and : after (withRegs [(0, 0xF3), (1, 0x3F)]) 0x8012 (·.reg 0 == 0x33) := by decide
/-- D9, D10. -/
theorem test_xor :
    after (withRegs [(0, 0xFF), (1, 0x0F)]) 0x8013 (·.reg 0 == 0xF0) ∧ after (withRegs [(4, 0x5C)]) 0x8443 (·.reg 4 == 0) := by
  decide
/-- S3a, D15. -/
theorem test_addReg :
    after (withRegs [(0, 0xFF), (1, 0x01)]) 0x8014 (fun t => t.reg 0 == 0x00 && t.reg 15 == 0x01) ∧
    after (withRegs [(0, 0xFF), (1, 0xFF)]) 0x8014 (fun t => t.reg 0 == 0xFE && t.reg 15 == 0x01) := by decide
/-- D12, D13: VF as destination, VF as source. -/
theorem test_addReg_flag :
    after (withRegs [(15, 0x01), (1, 0x01)]) 0x8F14 (·.reg 15 == 0x00) ∧
    after (withRegs [(0, 0x10), (15, 0x20)]) 0x80F4 (fun t => t.reg 0 == 0x30 && t.reg 15 == 0x00) := by decide
/-- S4a, S4b. -/
theorem test_sub :
    after (withRegs [(0, 0x05), (1, 0x0A)]) 0x8015 (fun t => t.reg 0 == 0xFB && t.reg 15 == 0x00) ∧
    after (withRegs [(0, 0x0A), (1, 0x05)]) 0x8015 (fun t => t.reg 0 == 0x05 && t.reg 15 == 0x01) := by decide
/-- D16, D18: equal operands; VF as destination. -/
theorem test_sub_flag :
    after (withRegs [(0, 0x42), (1, 0x42)]) 0x8015 (fun t => t.reg 0 == 0x00 && t.reg 15 == 0x01) ∧
    after (withRegs [(15, 0x05), (1, 0x03)]) 0x8F15 (·.reg 15 == 0x01) := by decide
/-- D22, D24. -/
theorem test_shr :
    after (withRegs [(2, 0x03), (5, 0xFF)]) 0x8256 (fun t => t.reg 2 == 0x01 && t.reg 15 == 0x01 && t.reg 5 == 0xFF) ∧
    after (withRegs [(15, 0x03)]) 0x8FF6 (·.reg 15 == 0x01) := by decide
/-- D19, D20. -/
theorem test_subn :
    after (withRegs [(0, 0x05), (1, 0x0A)]) 0x8017 (fun t => t.reg 0 == 0x05 && t.reg 15 == 0x01) ∧
    after (withRegs [(0, 0x0A), (1, 0x05)]) 0x8017 (fun t => t.reg 0 == 0xFB && t.reg 15 == 0x00) := by decide
/-- D26, D28. -/
theorem test_shl :
    after (withRegs [(2, 0x81)]) 0x820E (fun t => t.reg 2 == 0x02 && t.reg 15 == 0x01) ∧
    after (withRegs [(2, 0x7F)]) 0x820E (fun t => t.reg 2 == 0xFE && t.reg 15 == 0x00) := by decide
/-- D30: the draw that the host's `step` carries. -/
theorem test_rnd :
    steps ((State.reset.withFetchWord 16 0xC30F).setHost [.step 0xA5, .tick])
      (fun t => t.reg 3 == 0x05 && t.host == [.tick]) := by decide
/-- D31: mask 0, whatever the draw. -/
theorem test_rnd_mask_zero : after (withRegs [(3, 0x77)]) 0xC300 (fun t => (t.reg 3).toNat = 0) := by
  show decide (((Config.randomByte _) &&& 0x00).toNat = 0) = true
  simp

/-- M1. -/
theorem test_ldI : after State.reset 0xA300 (·.I == 0x300) := by decide
/-- M4, M5. -/
theorem test_addI :
    after (withI 0x0FFF [(0, 0x01)]) 0xF01E (·.I == 0x1000) ∧ after (withI 0xFFFF [(0, 0x01)]) 0xF01E (·.I == 0x0000) := by
  decide
/-- M8, M9. -/
theorem test_ldF :
    after (withRegs [(2, 0x0F)]) 0xF229 (·.I == 0x09B) ∧
    faultAt (withRegs [(2, 0x10)]) 0xF229 = some (.operandRange 0x200 0xF229 0x10) := by decide
/-- M10. -/
theorem test_ldB :
    after (withI 0x300 [(0xA, 0x7B)]) 0xFA33
      (fun t => t.bytesAtI 3 == [0x01, 0x02, 0x03] && t.I == 0x300) := by decide
/-- M13, M14. -/
theorem test_ldB_end :
    after (withI 0xFFD [(0, 0x09)]) 0xF033 (fun t => t.bytesAtI 3 == [0x00, 0x00, 0x09]) ∧
    faultAt (withI 0xFFE [(0, 0x09)]) 0xF033 = some (.outOfBounds 0x200 (some 0xF033) 0x1000) := by decide
/-- M15: the third byte stays. -/
theorem test_ldMemStore :
    after (withI 0x400 [(0, 0x11), (1, 0x22), (2, 0x33)]) 0xF155
      (fun t => t.bytesAtI 3 == [0x11, 0x22, 0x00] && t.I == 0x400) := by decide
/-- M22, M23: out of range above 0x1000; the font table may be overwritten. -/
theorem test_ldMemStore_range :
    faultAt (withI 0x2000 []) 0xF055 = some (.outOfBounds 0x200 (some 0xF055) 0x2000) ∧
    after (withI 0x050 [(0, 0x12), (1, 0x34)]) 0xF155 (fun t => t.bytesAtI 3 == [0x12, 0x34, 0x90]) := by decide
/-- M19: V3 stays. -/
theorem test_ldMemLoad :
    after ((withI 0x300 [(3, 0x77)]).store 0x300 [0x01, 0x02, 0x03, 0x04]) 0xF265
      (fun t => t.reg 0 == 0x01 && t.reg 1 == 0x02 && t.reg 2 == 0x03 && t.reg 3 == 0x77 && t.I == 0x300) := by decide
/-- M20 (VF loaded), M21. -/
theorem test_ldMemLoad_range :
    after ((withI 0x400 []).store 0x40F [0xFF]) 0xFF65 (fun t => t.reg 15 == 0xFF && t.reg 14 == 0x00) ∧
    faultAt (withI 0x1000 []) 0xF065 = some (.outOfBounds 0x200 (some 0xF065) 0x1000) := by decide

/-- The reset state with one pixel lit. -/
def withPixel (x : Col) (y : Row) (s : State) : State := s.setFB (s.FB.flip x y)

/-- G1: VF stays. -/
theorem test_cls :
    after (withPixel 5 7 (withRegs [(15, 0x01)])) 0x00E0 (fun t => t.FB.pixel 5 7 == false && t.reg 15 == 0x01) := by decide
/-- G5: the bottom edge wraps. -/
theorem test_drw_wraps :
    after ((withI 0x300 [(1, 0x1F), (15, 0x01)]).store 0x300 [0x80, 0x80]) 0xD012
      (fun t => t.FB.pixel 0 31 && t.FB.pixel 0 0 && !t.FB.pixel 1 0 && t.reg 15 == 0x00) := by decide
/-- G11: the coordinate is read before VF is written; a pixel is erased. -/
theorem test_drw_collision :
    after (withPixel 5 5 ((withI 0x300 [(15, 0x05), (1, 0x05)]).store 0x300 [0x80])) 0xDF11
      (fun t => !t.FB.pixel 5 5 && t.reg 15 == 0x01) := by decide

/-- T1. -/
theorem test_ldVxDt : after (State.reset.setDT 0x3C) 0xF307 (fun t => t.reg 3 == 0x3C && t.DT == 0x3C) := by decide
/-- T2. -/
theorem test_ldDtVx : after (withRegs [(1, 0x05)]) 0xF115 (fun t => t.DT == 0x05 && t.ST == 0x00) := by decide
/-- T3, T4. -/
theorem test_ldStVx :
    after (withRegs [(1, 0x02)]) 0xF118 (fun t => t.ST == 0x02 && t.sound && t.DT == 0x00) ∧
    after (State.reset.setST 0x09) 0xF118 (fun t => t.ST == 0x00 && !t.sound) := by decide
/-- T8, T12. -/
theorem test_skp :
    after ((withRegs [(4, 0x05)]).setKey 5 true) 0xE49E (·.PC == 0x204) ∧
    faultAt (withRegs [(4, 0x10)]) 0xE49E = some (.operandRange 0x200 0xE49E 0x10) := by decide
/-- T10, T11. -/
theorem test_sknp :
    after (withRegs [(4, 0x05)]) 0xE4A1 (·.PC == 0x204) ∧
    after ((withRegs [(4, 0x05)]).setKey 5 true) 0xE4A1 (·.PC == 0x202) := by decide
/-- T14: the step waits and nothing changes. -/
theorem test_ldVxK_waits :
    after State.reset 0xF10A (· == State.reset.withFetchWord 16 0xF10A) ∧
    stepStatus .fault (State.reset.withFetchWord 16 0xF10A) = .waiting := by decide
/-- T15. -/
theorem test_ldVxK : after ((State.reset.setKey 9 true).setKey 3 true) 0xF10A (fun t => t.reg 1 == 0x03 && t.PC == 0x202) := by
  decide

/-- T5, T6. -/
theorem test_tick :
    (tick ((State.reset.setDT 0x05).setST 0x01)).DT = 0x04 ∧ (tick ((State.reset.setDT 0x05).setST 0x01)).ST = 0x00 ∧
    (tick State.reset).DT = 0x00 := by decide
/-- L1. -/
theorem test_reset :
    State.reset.PC = 0x200 ∧ (State.reset.setI 0x050).bytesAtI 5 = [0xF0, 0x90, 0x90, 0x90, 0xF0] ∧
    (State.reset.setI 0x09B).bytesAtI 6 = [0xF0, 0x80, 0xF0, 0x80, 0x80, 0x00] := by decide
/-- L4: only the two bytes change. -/
theorem test_load :
    loadImage [0x12, 0x00] State.reset = .ok { State.reset with mem := [(0x200, 0x12)] } := rfl
/-- A store of the reset contents leaves no entry. -/
theorem test_canonical : Memory.write (Memory.write [] 0x300 0x07) 0x300 0x00 = [] := by decide

/-! ### Witnesses: concrete states and operands that meet the hypotheses of each obligation, clause by clause -/

/-- `s` with the bytes `bs` at PC = `pc`. -/
def withCode (pc : Word) (bs : List Byte) (s : State) : State := (s.setPC pc).store pc.toNat bs

/-- DecodeOfEncodeIsIdentity. -/
theorem witness_DecodeOfEncodeIsIdentity : WellFormed (.sys 0x0EF) ∧ WellFormed (.drw 15 15 15) := by decide

/-- EncodeOfDecodeIsIdentity. -/
theorem witness_EncodeOfDecodeIsIdentity : decodeWord 0x8FF6 = .ok (.shr 15 15) := by decide

/-- StepRunsDecodedInstruction, at the highest PC that fetches. -/
theorem witness_StepRunsDecodedInstruction :
    let s := withCode 0xFFE [0x60, 0x2A] State.reset
    s.host = [] ∧ s.PC.toNat ≤ 0xFFE ∧
      decode [s.byteAt s.PC.toNat, s.byteAt (s.PC.toNat + 1)] = .ok (.ldImm 0 0x2A, []) := by decide

/-- StepTransactionRunsWithItsDraw: an instruction that completes, and one that faults. -/
theorem witness_StepTransactionRunsWithItsDraw :
    (let s := (withCode 0xFFE [0xC3, 0x0F] State.reset).setHost [.step 0xA5]
     s.host = .step 0xA5 :: [] ∧ s.PC.toNat ≤ 0xFFE ∧
       decode [s.byteAt s.PC.toNat, s.byteAt (s.PC.toNat + 1)] = .ok (.rnd 3 0x0F, [])) ∧
    (∃ t, exec (.rnd 3 0x0F) ((withCode 0xFFE [0xC3, 0x0F] State.reset).setHost [.step 0xA5]) = .next t) ∧
    (let s := (withCode 0x200 [0x00, 0xEE] State.reset).setHost [.step 0xA5]
     s.host = .step 0xA5 :: [] ∧ s.PC.toNat ≤ 0xFFE ∧
       decode [s.byteAt s.PC.toNat, s.byteAt (s.PC.toNat + 1)] = .ok (.ret, [])) ∧
    exec .ret ((withCode 0x200 [0x00, 0xEE] State.reset).setHost [.step 0xA5]) =
      .fault (.stackUnderflow 0x200 0x00EE) :=
  ⟨by decide, ⟨_, rfl⟩, by decide, rfl⟩

/-- FetchBeyondMemoryFaults: both sides of 0xFFE. -/
theorem witness_FetchBeyondMemoryFaults :
    0xFFE < (State.reset.setPC 0xFFF).PC.toNat ∧ 0xFFE < (State.reset.setPC 0x1000).PC.toNat ∧
    (State.reset.setPC 0xFFE).PC.toNat ≤ 0xFFE := by decide

/-- UnknownWordFollowsPolicy, at the highest PC that fetches. -/
theorem witness_UnknownWordFollowsPolicy :
    let s := withCode 0xFFE [0x51, 0x21] State.reset
    s.PC.toNat ≤ 0xFFE ∧ ∀ i, decodeWord s.fetchWord ≠ .ok i := by
  refine ⟨by decide, fun i h => ?_⟩
  have e : decodeWord (withCode 0xFFE [0x51, 0x21] State.reset).fetchWord = .error (.unknown 0x5121) := by decide
  rw [e] at h
  cases h

/-- OnlyKeyWaitWaits: each of the three statuses occurs. -/
theorem witness_OnlyKeyWaitWaits :
    stepStatus .fault (withCode 0x200 [0xF1, 0x0A] State.reset) = .waiting ∧
    stepStatus .fault (withCode 0x200 [0xF1, 0x0A] (State.reset.setKey 0 true)) = .executed ∧
    stepStatus .fault (withCode 0x200 [0x00, 0xEE] State.reset) = .fault (.stackUnderflow 0x200 0x00EE) := by decide

/-- InstructionFaultsAreThoseListed: an instruction that faults and one that does not. -/
theorem witness_InstructionFaultsAreThoseListed :
    State.reset.S.length ≤ 16 ∧ faultOf .ret State.reset = some (.stackUnderflow 0x200 0x00EE) ∧
    faultOf (.ldF 0) State.reset = none ∧
    (let s := State.reset.setStack (.replicate 16 0x202)
     s.S.length ≤ 16 ∧ faultOf (.call 0x300) s = some (.stackOverflow 0x200 0x2300)) := by decide

/-- StepFaultsAreThoseListed, FaultRecordHoldsPcAndWord, FaultIgnoresDrawAndKeypad: a fetch fault, an unknown word, an
instruction's fault. -/
theorem witness_step_faults :
    cpuStep .fault (State.reset.setPC 0xFFF) = .fault (.outOfBounds 0xFFF none 0x1000) ∧
    cpuStep .fault (withCode 0xFFE [0x51, 0x21] State.reset) = .fault (.unknownOpcode 0xFFE 0x5121) ∧
    cpuStep .noOpAdvance (withCode 0x200 [0x00, 0xEE] State.reset) = .fault (.stackUnderflow 0x200 0x00EE) ∧
    (State.reset.setPC 0xFFF).S.length ≤ 16 ∧ (withCode 0xFFE [0x51, 0x21] State.reset).S.length ≤ 16 ∧
    (withCode 0x200 [0x00, 0xEE] State.reset).S.length ≤ 16 :=
  ⟨rfl, rfl, rfl, by decide, by decide, by decide⟩

/-- EveryTransactionKeepsInvariant: a CALL at the highest PC that fetches, with 15 entries on the stack. -/
theorem witness_EveryTransactionKeepsInvariant :
    let s := withCode 0xFFE [0x23, 0x00] (State.reset.setStack (.replicate 15 0x1000))
    Inv s ∧ ∃ t, hostStep .fault s = .next t :=
  ⟨⟨Memory.writeBytes_wf State.reset_mem_wf _ (by decide), by decide,
    fun v hv => by rw [List.eq_of_mem_replicate (show v ∈ List.replicate 15 0x1000 from hv)]; decide, by decide⟩,
    _, rfl⟩

/-- OnlyListedRegistersWritten, OnlyListedPartsWritten. -/
theorem witness_exec_next : (∃ t, exec (.addReg 15 1) (withRegs [(15, 0xFF), (1, 0x01)]) = .next t) ∧
    (∃ t, exec (.ldVxK 3) State.reset = .next t) := ⟨⟨_, rfl⟩, ⟨_, rfl⟩⟩

/-- WrittenInputsDetermineTransaction: a step that completes, a step that faults. -/
theorem witness_WrittenInputsDetermineTransaction :
    ((withCode 0x200 [0xC3, 0xFF] State.reset).setHost [.step 0xA5]).host ≠ [] := by decide
theorem witness_WrittenInputsDetermineTransaction_outcomes :
    (∃ t, hostStep .fault ((withCode 0x200 [0xC3, 0xFF] State.reset).setHost [.step 0xA5]) = .next t) ∧
    hostStep .fault ((withCode 0x200 [0x00, 0xEE] State.reset).setHost [.step 0xA5]) =
      .fault (.stackUnderflow 0x200 0x00EE) := ⟨⟨_, rfl⟩, rfl⟩

/-- StoredWordIsFetchedNext, at the highest PC that leaves room for the stored word. -/
theorem witness_StoredWordIsFetchedNext :
    let s := withCode 0xFFC [0xF1, 0x55] (withI 0xFFE [(0, 0x12), (1, 0x0A)])
    s.host = [] ∧ s.PC.toNat + 2 + ((1 : Reg).val + 1) ≤ 0x1000 ∧ 1 ≤ (1 : Reg).val ∧
      decodeWord s.fetchWord = .ok (.ldMemStore 1) ∧ s.I = s.PC + 2 ∧
      decodeWord (wordOfBytes (s.reg 0) (s.reg 1)) = .ok (.jp 0x20A) := by decide

/-- ResetStateIsAsListed: the reset state, and a state that the reset transaction makes of another. -/
theorem witness_ResetStateIsAsListed :
    State.reset = State.reset ∧ ∃ s, resetCore (withRegs [(3, 0x12)]) = resetCore s := ⟨rfl, _, rfl⟩

/-- HostTransactionsActInOrder: each transaction at the head of the list, a load that succeeds and one that fails. -/
theorem witness_HostTransactionsActInOrder :
    (State.reset.setHost [.reset, .tick]).host = .reset :: [.tick] ∧
    ((State.reset.setHost [.load [0x12, 0x00]]).host = .load [0x12, 0x00] :: [] ∧
      ∃ t, loadImage [0x12, 0x00] (State.reset.setHost [.load [0x12, 0x00]]) = .ok t) ∧
    (State.reset.setHost [.tick]).host = .tick :: [] ∧ (State.reset.setHost [.key 15 true]).host = .key 15 true :: [] ∧
    (State.reset.setHost [.readFB]).host = .readFB :: [] ∧ (State.reset.setHost [.readSound]).host = .readSound :: [] ∧
    ((State.reset.setHost [.step 0xA5]).host = .step 0xA5 :: [] ∧
      ∃ t, cpuStep .fault (State.reset.setHost [.step 0xA5]) = .next t) :=
  ⟨rfl, ⟨rfl, _, rfl⟩, rfl, rfl, rfl, rfl, rfl, _, rfl⟩
theorem witness_HostTransactionsActInOrder_failed_load :
    let image := List.replicate 3585 (0x12 : Byte)
    (State.reset.setHost [.load image]).host = .load image :: [] ∧
    loadImage image (State.reset.setHost [.load image]) = .error .capacityExceeded :=
  ⟨rfl, if_pos (lt_of_lt_of_eq (Nat.lt_succ_self _) List.length_replicate.symm)⟩

/-- LoadWritesTheImage, OverlongLoadWritesNothing: the longest image, the shortest that is too long. -/
theorem witness_load_lengths :
    (List.replicate 3584 (0x12 : Byte)).length ≤ 3584 ∧ (List.replicate 3584 (0x12 : Byte)).length = 3584 ∧
    3584 < (List.replicate 3585 (0x12 : Byte)).length :=
  ⟨le_of_eq List.length_replicate, List.length_replicate, lt_of_lt_of_eq (Nat.lt_succ_self _) List.length_replicate.symm⟩

/-- KeyWriteSetsOneFlag: another key. -/
theorem witness_KeyWriteSetsOneFlag : (14 : Key) ≠ 15 := by decide

/-- SysOnlyAdvancesPc. -/
theorem witness_SysOnlyAdvancesPc : (0x0E1 : Addr12) ≠ 0x0E0 ∧ (0x0E1 : Addr12) ≠ 0x0EE := by decide

/-- ZeroedMemoryRunsToItsEnd: the reset state. -/
theorem witness_ZeroedMemoryRunsToItsEnd :
    State.reset.host = [] ∧ State.reset.PC = 0x200 ∧ (∀ a, 0x200 ≤ a → a < 0x1000 → State.reset.byteAt a = 0) := by
  refine ⟨rfl, rfl, fun a h _ => ?_⟩
  have : ¬ (fontBase ≤ a ∧ a < fontBase + fontData.length) := by
    have h1 : fontBase = 0x050 := rfl
    have h2 : fontData.length = 80 := rfl
    omega
  simp [resetByte, this]

/-- CallPushesReturnAddress: 15 entries, 16 entries. -/
theorem witness_CallPushesReturnAddress :
    (State.reset.setStack (.replicate 15 0x202)).S.length < 16 ∧
    (State.reset.setStack (.replicate 16 0x202)).S.length = 16 := by decide

/-- ReturnPopsIntoPc: one entry, none. -/
theorem witness_ReturnPopsIntoPc : (State.reset.setStack [0x206]).S = [] ++ [0x206] ∧ State.reset.S = [] := by decide

/-- ReturnComesBackToTheCall: a CALL at the last depth that has room, one SYS, and the depth is as after the CALL. -/
theorem witness_ReturnComesBackToTheCall :
    let s := State.reset.setStack (.replicate 15 0x204)
    ∃ t u, exec (.call 0x300) s = .next t ∧ DeepRun s.S.length t u ∧ u.S.length = s.S.length + 1 := by
  let s := State.reset.setStack (.replicate 15 0x204)
  let t := (s.setStack (s.S ++ [0x202])).setPC 0x300
  have e : step t = .next t.advance := cpuStep_known (by decide) (by decide : decodeWord t.fetchWord = .ok (.sys 0x000))
  exact ⟨t, t.advance, rfl, .next t t _ (.refl t (by decide)) (by decide) e (by decide), by decide⟩

/-- TransactionKeepsTheStackBelow: a RET that cuts the stack down to exactly the entries kept. -/
theorem witness_TransactionKeepsTheStackBelow :
    let s := withCode 0x300 [0x00, 0xEE] (State.reset.setStack [0x204, 0x206])
    ∃ t, s.host.head? ≠ some .reset ∧ hostStep .fault s = .next t ∧ [0x204] <+: s.S ∧ [(0x204 : Word)].length ≤ t.S.length :=
  ⟨_, by decide, rfl, ⟨[0x206], rfl⟩, by decide⟩

/-- ImmediateSkipsCompare, RegisterSkipsCompare: equal and unequal. -/
theorem witness_skips :
    State.reset.reg 3 = 0x00 ∧ State.reset.reg 3 ≠ 0x01 ∧ State.reset.reg 3 = State.reset.reg 4 ∧
    (withRegs [(3, 0x01)]).reg 3 ≠ (withRegs [(3, 0x01)]).reg 4 := by decide

/-- KeySkipsReadTheKeypad: the highest key number, held and not held, and the lowest value that is none. -/
theorem witness_KeySkipsReadTheKeypad :
    ((withRegs [(4, 0x0F)]).reg 4).toNat = (15 : Key).val ∧ (withRegs [(4, 0x0F)]).key 15 = false ∧
    (((withRegs [(4, 0x0F)]).setKey 15 true).reg 4).toNat = (15 : Key).val ∧
    ((withRegs [(4, 0x0F)]).setKey 15 true).key 15 = true ∧ 0x0F < ((withRegs [(4, 0x10)]).reg 4).toNat := by decide

/-- The flag-setting instructions: a destination other than VF. -/
theorem witness_destination : (14 : Reg) ≠ 15 := by decide

/-- GlyphAddressForDigit: the last digit, the first value that is none. -/
theorem witness_GlyphAddressForDigit :
    ((withRegs [(2, 0x0F)]).reg 2).toNat ≤ 0x0F ∧ 0x0F < ((withRegs [(2, 0x10)]).reg 2).toNat := by decide

/-- DecimalDigitsStoredAtIndex: the last base in range, the first out of it. -/
theorem witness_DecimalDigitsStoredAtIndex :
    (withI 0xFFD []).I.toNat + 2 ≤ 0xFFF ∧ 0xFFF < (withI 0xFFE []).I.toNat + 2 := by decide

/-- RegistersStoredAtIndex, RegistersLoadedFromIndex: the last base in range, the first out of it; a register that moves
and one that does not. -/
theorem witness_RegistersAtIndex :
    (withI 0xFF1 []).I.toNat + (14 : Reg).val ≤ 0xFFF ∧ 0xFFF < (withI 0xFF2 []).I.toNat + (14 : Reg).val ∧
    (14 : Reg) ≤ 14 ∧ (14 : Reg) < 15 := by decide

/-- DrawInvertsThePixelsOfTheSprite: no row at an I outside memory, the last base in range, the first out of it; a pixel
under the sprite and one beside it. -/
theorem witness_DrawInvertsThePixelsOfTheSprite :
    ((0 : RowCount).val = 0 ∨ (withI 0xFFFF []).I.toNat + (0 : RowCount).val ≤ 0x1000) ∧
    ((5 : RowCount).val = 0 ∨ (withI 0xFFB []).I.toNat + (5 : RowCount).val ≤ 0x1000) ∧
    (0 < (5 : RowCount).val ∧ 0x1000 < (withI 0xFFC []).I.toNat + (5 : RowCount).val) ∧
    SpriteCovers (withI 0x050 [(0, 0x3E)]) 0 1 5 1 4 ∧ ¬ SpriteCovers (withI 0x050 [(0, 0x3E)]) 0 1 5 2 4 := by
  refine ⟨by decide, by decide, by decide, ⟨4, 3, by decide⟩, ?_⟩
  rintro ⟨r, c, hr, hc, hb, hx, hy⟩
  have h0 : ((withI 0x050 [(0, 0x3E)]).reg 0).toNat = 0x3E := by decide
  have h1 : ((withI 0x050 [(0, 0x3E)]).reg 1).toNat = 0 := by decide
  have e2 : (2 : Col).val = 2 := rfl
  have e4 : (4 : Row).val = 4 := rfl
  rw [h0, e2] at hx
  rw [h1, e4] at hy
  have hr4 : r = 4 := by omega
  have hc4 : c = 4 := by omega
  subst hr4 hc4
  exact absurd hb (by decide)

/-- DrawingTwiceRestoresTheScreen: a first draw that leaves its coordinates alone. -/
theorem witness_DrawingTwiceRestoresTheScreen :
    ∃ t, exec (.drw 0 1 5) (withI 0x050 [(0, 0x0A), (1, 0x05)]) = .next t ∧
      t.reg 0 = (withI 0x050 [(0, 0x0A), (1, 0x05)]).reg 0 ∧ t.reg 1 = (withI 0x050 [(0, 0x0A), (1, 0x05)]).reg 1 :=
  ⟨_, rfl, rfl, rfl⟩

/-- KeyWaitLatchesTheLowestKey: the highest key alone, and no key. -/
theorem witness_KeyWaitLatchesTheLowestKey :
    (State.reset.setKey 15 true).key 15 = true ∧ (∀ j : Key, j < 15 → (State.reset.setKey 15 true).key j = false) ∧
    (∀ k : Key, State.reset.key k = false) := by decide

end Sys2Proof.Tests
end

section
/-! SUPPORT. Frames of the single updates, and how two frames compose. -/

namespace Sys2Proof.Safety

open Sys2Proof Sys2Proof.Machine

theorem Agree.refl (s : State) (p : Part) : Agree s s p := by
  cases p <;> simp [Agree]

theorem Agree.trans {s u t : State} {p : Part} (h : Agree s u p) (h' : Agree u t p) : Agree s t p := by
  cases p <;> simp_all [Agree]

theorem OnlyChanges.refl (ps : List Part) (s : State) : OnlyChanges ps s s := fun p _ => Agree.refl s p

/-- A frame, and then a change of one of the parts it lists. -/
theorem OnlyChanges.andThen {ps : List Part} {q : Part} {s u t : State} (h : OnlyChanges ps s u) (hq : q ∈ ps)
    (h' : OnlyChanges [q] u t) : OnlyChanges ps s t := fun p hp =>
  (h p hp).trans (h' p (by rintro hpq; exact hp (List.mem_singleton.1 hpq ▸ hq)))

theorem OnlyChanges.setReg (s : State) (x : Reg) (v : Byte) : OnlyChanges [.V] s (s.setReg x v) := by
  intro p hp
  cases p <;> simp_all [Agree, State.key]

theorem OnlyChanges.setI (s : State) (v : Word) : OnlyChanges [.I] s (s.setI v) := by
  intro p hp
  cases p <;> simp_all [Agree, State.byteAt, State.key]

theorem OnlyChanges.setPC (s : State) (v : Word) : OnlyChanges [.PC] s (s.setPC v) := by
  intro p hp
  cases p <;> simp_all [Agree, State.key]

theorem OnlyChanges.setStack (s : State) (S : List Word) : OnlyChanges [.S] s (s.setStack S) := by
  intro p hp
  cases p <;> simp_all [Agree, State.byteAt, State.key]

theorem OnlyChanges.setDT (s : State) (v : Byte) : OnlyChanges [.DT] s (s.setDT v) := by
  intro p hp
  cases p <;> simp_all [Agree, State.byteAt, State.key]

theorem OnlyChanges.setST (s : State) (v : Byte) : OnlyChanges [.ST] s (s.setST v) := by
  intro p hp
  cases p <;> simp_all [Agree, State.byteAt, State.key]

theorem OnlyChanges.setFB (s : State) (g : Grid) : OnlyChanges [.FB] s (s.setFB g) := by
  intro p hp
  cases p <;> simp_all [Agree, State.byteAt, State.key]

theorem OnlyChanges.countDraw (s : State) : OnlyChanges [.drawIndex] s s.countDraw := by
  intro p hp
  cases p <;> simp_all [Agree, State.byteAt, State.key]

/-! ### The lists of written registers and parts -/

/-- Every instruction may move PC (30_encoding R106). -/
theorem pc_mem_writtenParts (i : Instr) : Part.PC ∈ writtenParts i := by
  cases i <;> simp [writtenParts]

/-- An instruction with a register in its list has V among its parts (10_state R32). -/
theorem V_mem_writtenParts {i : Instr} {x : Reg} (hx : x ∈ writtenRegs i) : Part.V ∈ writtenParts i := by
  cases i <;> simp_all [writtenRegs, writtenParts]

end Sys2Proof.Safety
end

section
/-! SUPPORT. What an instruction that completes has done, said once: a chain of single updates, each allowed by the lists
of 10_state R32-R43 and inside the ranges of 10_state R36, 20_memory R75 and 30_encoding R107. The frames of `exec` and
the invariant are inductions over the chain. -/

namespace Sys2Proof.Safety

open Sys2Proof Sys2Proof.Machine

/-- A PC that an instruction at `s` may leave (30_encoding R107): `next`, `skip`, a popped address, or a jump's target of
at most 0xFFF + 0xFF. -/
inductive Target (s : State) : Word → Prop where
  | next : Target s s.nextPC
  | skip : Target s s.skipPC
  | popped {v : Word} : v ∈ s.S → Target s v
  | jump {v : Word} : v.toNat ≤ 0x10FE → Target s v

/-- `Effect i s t`: single updates that the lists allow `i` lead from `s` to `t`. -/
inductive Effect (i : Instr) (s : State) : State → Prop where
  | refl : Effect i s s
  | setReg {u : State} {x : Reg} (v : Byte) : Effect i s u → x ∈ writtenRegs i → Effect i s (u.setReg x v)
  | setI {u : State} (v : Word) : Effect i s u → Part.I ∈ writtenParts i → Effect i s (u.setI v)
  | setPC {u : State} {v : Word} : Effect i s u → Target s v → Effect i s (u.setPC v)
  | push {u : State} : Effect i s u → Part.S ∈ writtenParts i → s.S.length < Config.stackDepth →
      Effect i s (u.setStack (s.S ++ [s.nextPC]))
  | pop {u : State} : Effect i s u → Part.S ∈ writtenParts i → Effect i s (u.setStack s.S.dropLast)
  | setDT {u : State} (v : Byte) : Effect i s u → Part.DT ∈ writtenParts i → Effect i s (u.setDT v)
  | setST {u : State} (v : Byte) : Effect i s u → Part.ST ∈ writtenParts i → Effect i s (u.setST v)
  | setFB {u : State} (g : Grid) : Effect i s u → Part.FB ∈ writtenParts i → Effect i s (u.setFB g)
  | store {u : State} {a : Nat} {bs : List Byte} : Effect i s u → Part.mem ∈ writtenParts i →
      a + bs.length ≤ Config.memSize → Effect i s (u.store a bs)
  | countDraw {u : State} : Effect i s u → Part.drawIndex ∈ writtenParts i → Effect i s u.countDraw

namespace Effect

variable {i : Instr} {s u t : State}

/-- `PC <- next` at the end of an instruction that has left PC alone so far (30_encoding R106). -/
theorem advance (h : Effect i s u) (hpc : u.PC = s.PC) : Effect i s u.advance := by
  have hn : u.nextPC = s.nextPC := congrArg (· + 2) hpc
  rw [State.advance, hn]
  exact h.setPC .next

/-- Loading consecutive registers, each of them listed (42_memory_index R265). -/
theorem setRegs (h : Effect i s u) (x : Nat) (vs : List Byte)
    (hx : ∀ k < vs.length, Fin.ofNat 16 (x + k) ∈ writtenRegs i) : Effect i s (u.setRegs x vs) := by
  induction vs generalizing u x with
  | nil => exact h
  | cons v vs ih =>
    refine ih (h.setReg v (hx 0 (by simp))) (x + 1) fun k hk => ?_
    simpa [Nat.add_assoc, Nat.add_comm 1] using hx (k + 1) (by simpa using hk)

/-! ### The shared forms of an outcome -/

theorem of_skipIf {c : Bool} (h : skipIf c s = .next t) : Effect i s t := by
  obtain rfl := Host.Outcome.next.inj h
  cases c
  · exact refl.setPC .next
  · exact refl.setPC .skip

theorem of_resultOnly {x : Reg} {v : Byte} (hu : Effect i s u) (hpc : u.PC = s.PC) (hx : x ∈ writtenRegs i)
    (h : resultOnly x v u = .next t) : Effect i s t := by
  obtain rfl := Host.Outcome.next.inj h
  exact (hu.setReg v hx).advance hpc

theorem of_resultAndFlag {x : Reg} {v : Byte} {f : Bool} (hx : x ∈ writtenRegs i) (hf : flagReg ∈ writtenRegs i)
    (h : resultAndFlag x v f s = .next t) : Effect i s t := by
  obtain rfl := Host.Outcome.next.inj h
  exact ((refl.setReg v hx).setReg _ hf).advance rfl

end Effect

/-- The list of FX65 holds V0..VX (10_state R32). -/
theorem mem_writtenRegs_ldMemLoad {x : Reg} {k : Nat} (hk : k < x.val + 1) :
    Fin.ofNat 16 k ∈ writtenRegs (.ldMemLoad x) := by
  have hkx : k % 16 ≤ x.val := (Nat.mod_le k 16).trans (Nat.le_of_lt_succ hk)
  exact List.mem_filter.2 ⟨List.mem_finRange _, decide_eq_true hkx⟩

/-- The target of BNNN is at most 0xFFF + 0xFF (40_control_flow R206). -/
theorem jpV0_target_le (nnn : Addr12) (v : Byte) : (addrOperand nnn + zext16 v).toNat ≤ 0x10FE := by
  rw [BitVec.toNat_add, addrOperand_toNat, zext16_toNat]
  have := nnn.isLt
  have := v.isLt
  omega

/-- A 12-bit address is a target (30_encoding R107). -/
theorem Target.address (s : State) (nnn : Addr12) : Target s (addrOperand nnn) :=
  .jump (by rw [addrOperand_toNat]; have := nnn.isLt; omega)

/-- What an instruction that completes has done. -/
theorem exec_effect {i : Instr} {s t : State} (h : exec i s = .next t) : Effect i s t := by
  cases i with
  | sys nnn =>
    obtain rfl := Host.Outcome.next.inj h
    exact Effect.refl.advance rfl
  | cls =>
    obtain rfl := Host.Outcome.next.inj h
    exact (Effect.refl.setFB _ (by simp [writtenParts])).advance rfl
  | ret =>
    simp only [exec, execRet] at h
    split at h
    next => cases h
    next v hv =>
      obtain rfl := Host.Outcome.next.inj h
      exact (Effect.refl.pop (by simp [writtenParts])).setPC (.popped (List.mem_of_getLast? hv))
  | jp nnn =>
    obtain rfl := Host.Outcome.next.inj h
    exact Effect.refl.setPC (.address s nnn)
  | call nnn =>
    simp only [exec, execCall] at h
    split at h
    next => cases h
    next hfull =>
      obtain rfl := Host.Outcome.next.inj h
      exact (Effect.refl.push (by simp [writtenParts]) (Nat.lt_of_not_le hfull)).setPC (.address s nnn)
  | jpV0 nnn =>
    obtain rfl := Host.Outcome.next.inj h
    exact Effect.refl.setPC (.jump (jpV0_target_le nnn _))
  | seImm _ _ | sneImm _ _ | seReg _ _ | sneReg _ _ => exact Effect.of_skipIf h
  | ldImm _ _ | addImm _ _ | ldReg _ _ | orReg _ _ | andReg _ _ | xorReg _ _ | ldVxDt _ =>
    exact Effect.refl.of_resultOnly rfl (by simp [writtenRegs]) h
  | addReg _ _ | sub _ _ | shr _ _ | subn _ _ | shl _ _ =>
    exact Effect.of_resultAndFlag (by simp [writtenRegs]) (by simp [writtenRegs, flagReg]) h
  | rnd x nn =>
    exact (Effect.refl.countDraw (by simp [writtenParts])).of_resultOnly rfl (by simp [writtenRegs]) h
  | drw x y n =>
    obtain ⟨rfl, -⟩ := checkRange_eq_next h
    exact ((Effect.refl.setFB _ (by simp [writtenParts])).setReg _ (by simp [writtenRegs, flagReg])).advance rfl
  | skp _ | sknp _ =>
    simp only [exec, execSkp, execSknp] at h
    obtain ⟨_, -, hk⟩ := nibbleOperand_eq_next h
    exact Effect.of_skipIf hk
  | ldVxK x =>
    simp only [exec, execLdVxK] at h
    split at h
    next => exact Effect.refl.of_resultOnly rfl (by simp [writtenRegs]) h
    next =>
      obtain rfl := Host.Outcome.next.inj h
      exact .refl
  | ldDtVx x =>
    obtain rfl := Host.Outcome.next.inj h
    exact (Effect.refl.setDT _ (by simp [writtenParts])).advance rfl
  | ldStVx x =>
    obtain rfl := Host.Outcome.next.inj h
    exact (Effect.refl.setST _ (by simp [writtenParts])).advance rfl
  | ldI _ | addI _ =>
    obtain rfl := Host.Outcome.next.inj h
    exact (Effect.refl.setI _ (by simp [writtenParts])).advance rfl
  | ldF x =>
    simp only [exec, execLdF] at h
    obtain ⟨_, -, hd⟩ := nibbleOperand_eq_next h
    obtain rfl := Host.Outcome.next.inj hd
    exact (Effect.refl.setI _ (by simp [writtenParts])).advance rfl
  | ldB x =>
    obtain ⟨rfl, hr⟩ := checkRange_eq_next h
    exact (Effect.refl.store (by simp [writtenParts]) (by simpa [bcdDigits, Config.memSize] using hr)).advance rfl
  | ldMemStore x =>
    obtain ⟨rfl, hr⟩ := checkRange_eq_next h
    exact (Effect.refl.store (by simp [writtenParts]) (by simp [State.regsUpTo, Config.memSize]; omega)).advance rfl
  | ldMemLoad x =>
    obtain ⟨rfl, -⟩ := checkRange_eq_next h
    refine (Effect.refl.setRegs 0 _ fun k hk => ?_).advance (by rw [State.setRegs_eq])
    rw [Nat.zero_add]
    exact mem_writtenRegs_ldMemLoad (by simpa using hk)

end Sys2Proof.Safety
end

section
/-! PROOF. The frames of the instructions (10_state R32-R43). -/

namespace Sys2Proof.Safety

open Sys2Proof Sys2Proof.Machine

/-- The updates of an instruction keep every register that its list does not hold. -/
theorem Effect.regsExcept {i : Instr} {s t : State} (h : Effect i s t) : RegsExcept (writtenRegs i) s t := by
  intro r hr
  induction h with
  | setReg v _ hx ih => rw [State.reg_setReg_other _ v (by rintro rfl; exact hr hx), ih]
  | refl => rfl
  | setI _ _ _ ih | setPC _ _ ih | push _ _ _ ih | pop _ _ ih | setDT _ _ _ ih | setST _ _ _ ih | setFB _ _ _ ih
  | store _ _ _ ih | countDraw _ _ ih => exact ih

/-- The updates of an instruction keep every part that its list does not hold. -/
theorem Effect.onlyChanges {i : Instr} {s t : State} (h : Effect i s t) : OnlyChanges (writtenParts i) s t := by
  induction h with
  | refl => exact .refl _ s
  | setReg v _ hx ih => exact ih.andThen (V_mem_writtenParts hx) (.setReg _ _ v)
  | setI v _ hp ih => exact ih.andThen hp (.setI _ v)
  | setPC _ _ ih => exact ih.andThen (pc_mem_writtenParts i) (.setPC _ _)
  | push _ hp _ ih => exact ih.andThen hp (.setStack _ _)
  | pop _ hp ih => exact ih.andThen hp (.setStack _ _)
  | setDT v _ hp ih => exact ih.andThen hp (.setDT _ v)
  | setST v _ hp ih => exact ih.andThen hp (.setST _ v)
  | setFB g _ hp ih => exact ih.andThen hp (.setFB _ g)
  | store _ hp _ ih => exact ih.andThen hp (.store _ _ _)
  | countDraw _ hp ih => exact ih.andThen hp (.countDraw _)

/-- Settles O17: what an instruction does is a chain of updates that writes listed registers only. -/
theorem onlyListedRegistersWritten : Obligations.OnlyListedRegistersWritten :=
  fun _ _ _ h => (exec_effect h).regsExcept

/-- Settles O18: what an instruction does is a chain of updates of listed parts only. -/
theorem onlyListedPartsWritten : Obligations.OnlyListedPartsWritten :=
  fun _ _ _ h => (exec_effect h).onlyChanges

end Sys2Proof.Safety
end

section
/-! SUPPORT. What a step and a transaction that answer a next state have done. -/

namespace Sys2Proof.Machine

open Sys2Proof

/-- A step that completes: from a PC that fetches, the decoded instruction completed, or an unknown word was passed over
(30_encoding R112; 44_timers_input R340). -/
theorem cpuStep_eq_next {p : Config.UnknownOpcodePolicy} {s t : State} (h : cpuStep p s = .next t) :
    s.PC.toNat ≤ 0xFFE ∧ ((∃ i, decodeWord s.fetchWord = .ok i ∧ exec i s = .next t) ∨
      (∃ e, decodeWord s.fetchWord = .error e ∧ p = .noOpAdvance ∧ t = s.advance)) := by
  by_cases hpc : s.PC.toNat ≤ 0xFFE
  · refine ⟨hpc, ?_⟩
    cases hd : decodeWord s.fetchWord with
    | ok i => exact .inl ⟨i, rfl, cpuStep_known hpc hd ▸ h⟩
    | error e =>
      rw [cpuStep_unknown hpc hd] at h
      cases p with
      | fault => cases h
      | noOpAdvance => exact .inr ⟨e, rfl, rfl, (Host.Outcome.next.inj h).symm⟩
  · rw [cpuStep_outside (Nat.lt_of_not_le hpc)] at h
    cases h

/-- A load that succeeds stores an image that fits (70_reset_and_hazards R502, R503). -/
theorem loadImage_eq_ok {bytes : List Byte} {s t : State} (h : loadImage bytes s = .ok t) :
    bytes.length ≤ Config.programMax ∧ t = s.store Config.programBase bytes := by
  unfold loadImage at h
  split at h
  next => cases h
  next hlen => exact ⟨Nat.le_of_not_lt hlen, (Except.ok.inj h).symm⟩

/-- `HostEffect p s u`: what the next transaction may make of `s`, up to the host's list (60_exceptions R440): a step
that completes, a reset, a load that fits, a tick, a key write, or no change. -/
inductive HostEffect (p : Config.UnknownOpcodePolicy) (s : State) : State → Prop where
  | step {u : State} : cpuStep p s = .next u → HostEffect p s u
  | reset : s.host.head? = some .reset → HostEffect p s (resetCore s)
  | load {bytes : List Byte} : bytes.length ≤ Config.programMax → HostEffect p s (s.store Config.programBase bytes)
  | tick : HostEffect p s (tick s)
  | key (k : Key) (b : Bool) : HostEffect p s (s.setKey k b)
  | unchanged : HostEffect p s s

/-- What a transaction that answers a next state has done. -/
theorem hostStep_effect {p : Config.UnknownOpcodePolicy} {s t : State} (h : hostStep p s = .next t) :
    ∃ u rest, t = u.setHost rest ∧ HostEffect p s u := by
  unfold hostStep at h
  split at h
  next => exact ⟨t, t.host, rfl, .step h⟩
  next r rest _ =>
    obtain ⟨u, hu, rfl⟩ := popHost_eq_next h
    exact ⟨u, rest, rfl, .step hu⟩
  next rest hs => exact ⟨_, rest, (Host.Outcome.next.inj h).symm, .reset (congrArg List.head? hs)⟩
  next bytes rest _ =>
    split at h
    next u hu =>
      obtain ⟨hlen, rfl⟩ := loadImage_eq_ok hu
      exact ⟨_, rest, (Host.Outcome.next.inj h).symm, .load hlen⟩
    next => exact ⟨s, rest, (Host.Outcome.next.inj h).symm, .unchanged⟩
  next rest _ => exact ⟨_, rest, (Host.Outcome.next.inj h).symm, .tick⟩
  next k b rest _ => exact ⟨_, rest, (Host.Outcome.next.inj h).symm, .key k b⟩
  next rest _ => exact ⟨s, rest, (Host.Outcome.next.inj h).symm, .unchanged⟩
  next rest _ => exact ⟨s, rest, (Host.Outcome.next.inj h).symm, .unchanged⟩

end Sys2Proof.Machine
end

section
/-! PROOF. The invariant at reset and over every transaction (10_state R36, R46; 30_encoding R107). -/

namespace Sys2Proof.Safety

open Sys2Proof Sys2Proof.Machine

/-- Settles O15: no byte is listed, the stack is empty, and PC is 0x200. -/
theorem invariantHoldsAtReset : Obligations.InvariantHoldsAtReset :=
  ⟨State.reset_mem_wf, by decide, by simp [State.reset], by decide⟩

/-- An instruction that has been fetched leaves a PC of at most 0x10FE (30_encoding R107). -/
theorem Target.le {s : State} {v : Word} (h : Target s v) (hpc : s.PC.toNat ≤ 0xFFE)
    (hS : ∀ w ∈ s.S, w.toNat ≤ 0x1000) : v.toNat ≤ 0x10FE := by
  cases h with
  | next => rw [State.nextPC_toNat hpc]; omega
  | skip => rw [State.skipPC_toNat hpc]; omega
  | popped hv => exact (hS v hv).trans (by decide)
  | jump hv => exact hv

/-- CALL keeps the stack's entries in range: it pushes an address of at most 0x1000 (40_control_flow R205). -/
theorem push_entries_le {s : State} (hpc : s.PC.toNat ≤ 0xFFE) (hS : ∀ v ∈ s.S, v.toNat ≤ 0x1000) :
    ∀ v ∈ s.S ++ [s.nextPC], v.toNat ≤ 0x1000 := by
  intro v hv
  rcases List.mem_append.1 hv with hv | hv
  · exact hS v hv
  · rw [List.mem_singleton.1 hv, State.nextPC_toNat hpc]
    omega

/-- The updates of an instruction that has been fetched keep the invariant. -/
theorem Effect.inv {i : Instr} {s t : State} (h : Effect i s t) (hs : Inv s) (hpc : s.PC.toNat ≤ 0xFFE) : Inv t := by
  have ⟨_, hdepth, hentries, _⟩ := hs
  induction h with
  | refl => exact hs
  | setPC _ htarget ih =>
    obtain ⟨hm, hl, he, -⟩ := ih
    exact ⟨hm, hl, he, htarget.le hpc hentries⟩
  | push _ _ hroom ih =>
    obtain ⟨hm, -, -, hp⟩ := ih
    exact ⟨hm, by simpa using hroom, push_entries_le hpc hentries, hp⟩
  | pop _ _ ih =>
    obtain ⟨hm, -, -, hp⟩ := ih
    exact ⟨hm, (List.dropLast_sublist _).length_le.trans hdepth,
      fun v hv => hentries v (List.mem_of_mem_dropLast hv), hp⟩
  | store _ _ hr ih =>
    obtain ⟨hm, hrest⟩ := ih
    exact ⟨Memory.writeBytes_wf hm _ hr, hrest⟩
  | setReg _ _ _ ih | setI _ _ _ ih | setDT _ _ _ ih | setST _ _ _ ih | setFB _ _ _ ih | countDraw _ _ ih => exact ih

/-- A step that completes keeps the invariant, under either policy. -/
theorem inv_cpuStep {p : Config.UnknownOpcodePolicy} {s t : State} (hs : Inv s) (h : cpuStep p s = .next t) : Inv t := by
  obtain ⟨hpc, ⟨i, -, hexec⟩ | ⟨_, -, -, rfl⟩⟩ := cpuStep_eq_next h
  · exact (exec_effect hexec).inv hs hpc
  · obtain ⟨hm, hl, he, -⟩ := hs
    exact ⟨hm, hl, he, Target.next.le hpc he⟩

/-- A load that fits keeps the invariant: it ends at 0xFFF at the latest (70_reset_and_hazards R503). -/
theorem inv_load {s : State} (hs : Inv s) {bytes : List Byte} (hlen : bytes.length ≤ Config.programMax) :
    Inv (s.store Config.programBase bytes) := by
  obtain ⟨hm, hrest⟩ := hs
  have hfits : Config.programBase + bytes.length ≤ Config.memSize := Nat.add_le_add_left hlen Config.programBase
  exact ⟨Memory.writeBytes_wf hm _ hfits, hrest⟩

/-- Settles O16: a transaction is a step, a reset, a load that fits, or a change of parts that the invariant does not
name. -/
theorem everyTransactionKeepsInvariant : Obligations.EveryTransactionKeepsInvariant := by
  intro p s t hs h
  obtain ⟨u, rest, rfl, hu⟩ := hostStep_effect h
  suffices Inv u from this
  cases hu with
  | step hstep => exact inv_cpuStep hs hstep
  | reset => exact invariantHoldsAtReset
  | load hlen => exact inv_load hs hlen
  | tick | key | unchanged => exact hs

end Sys2Proof.Safety
end

section
/-! PROOF. The read-outs (10_state R39, R42; 60_exceptions R430, R433). -/

namespace Sys2Proof.Machine

open Sys2Proof

/-- The exported sequence is the frame buffer's rows, one after the other (60_exceptions R430). -/
theorem State.exportFB_eq_flatten (s : State) : s.exportFB = s.FB.flatten.toList := by
  simp only [State.exportFB, Vector.flatten, Vector.toList_mk, List.flatMap, Array.toList_flatten, Array.toList_map,
    List.map_map]
  rfl

/-- Pixel (x, y) of the flattened frame buffer stands at y*64 + x (10_state R42). -/
theorem Grid.flatten_getElem? (g : Grid) (x : Col) (y : Row) :
    g.flatten[y.val * 64 + x.val]? = some (g.pixel x y) := by
  have hdiv : (y.val * 64 + x.val) / 64 = y.val := by omega
  have hmod : (y.val * 64 + x.val) % 64 = x.val := by omega
  rw [Vector.getElem?_flatten, dif_pos (show y.val * 64 + x.val < 32 * 64 by omega)]
  simp [Grid.pixel, hdiv, hmod]

/-- The sound output is `ST != 0` (10_state R39). -/
theorem State.sound_iff (s : State) : s.sound = true ↔ s.ST.toNat ≠ 0 := by
  simp [State.sound, BitVec.toNat_eq]

/-- Settles O27: the exported sequence is the flattened frame buffer, and the sound output is read off ST. -/
theorem readOutsShowTheState : Obligations.ReadOutsShowTheState := by
  intro s
  rw [State.exportFB_eq_flatten]
  exact ⟨Vector.length_toList, fun x y => by simpa using s.FB.flatten_getElem? x y, s.sound_iff⟩

end Sys2Proof.Machine
end

section
/-! SUPPORT. A step with a free draw, and what FX55 leaves in memory (30_encoding R112; 42_memory_index R264). -/

namespace Sys2Proof.Machine

open Sys2Proof

/-- With no transaction written down, a step at a PC that fetches a known word is that instruction (30_encoding R112). -/
theorem step_known {s : State} {i : Instr} (hhost : s.host = []) (hpc : s.PC.toNat ≤ 0xFFE)
    (h : decodeWord s.fetchWord = .ok i) : step s = exec i s := by
  rw [step, hostStep, hhost]
  exact cpuStep_known hpc h

@[simp] theorem State.length_regsUpTo (s : State) (x : Reg) : (s.regsUpTo x).length = x.val + 1 := by
  simp only [State.regsUpTo, List.length_take, Vector.length_toList]
  omega

theorem State.getElem_regsUpTo (s : State) (x r : Reg) (h : r.val < (s.regsUpTo x).length) :
    (s.regsUpTo x)[r.val] = s.reg r := by
  simp [State.regsUpTo, State.reg]

/-- Storing V0..VX at `a` puts V[r] at `a + r` (42_memory_index R264). -/
theorem State.byteAt_store_regsUpTo (s : State) (a : Nat) {x r : Reg} (h : r ≤ x) :
    (s.store a (s.regsUpTo x)).byteAt (a + r.val) = s.reg r := by
  have hr : r.val < (s.regsUpTo x).length := by
    rw [State.length_regsUpTo]
    exact Nat.lt_succ_of_le h
  rw [State.byteAt_store_inside s a _ hr, State.getElem_regsUpTo]

/-- FX55 inside memory stores V0..VX at I (42_memory_index R264). -/
theorem exec_ldMemStore_inside {x : Reg} {s : State} (h : s.I.toNat + (x.val + 1) ≤ 0x1000) :
    exec (.ldMemStore x) s = .next (s.store s.I.toNat (s.regsUpTo x)).advance :=
  checkRange_inside _ _ (.inr h)

end Sys2Proof.Machine
end

section
/-! PROOF. Memory holds code and data alike (20_memory R89; 70_reset_and_hazards R511). -/

namespace Sys2Proof.Machine

open Sys2Proof

/-- After V0..VX have been stored over the next instruction, with X at least 1, the word fetched there is V0, V1
(20_memory R89). -/
theorem fetchWord_store_regsUpTo_advance (s : State) {x : Reg} (hx : 1 ≤ x.val) :
    (s.store s.nextPC.toNat (s.regsUpTo x)).advance.fetchWord = wordOfBytes (s.reg 0) (s.reg 1) :=
  congrArg₂ wordOfBytes (s.byteAt_store_regsUpTo s.nextPC.toNat (r := 0) (Nat.zero_le _))
    (s.byteAt_store_regsUpTo s.nextPC.toNat (r := 1) hx)

/-- Settles O20: FX55 completes and leaves V0, V1 where the next step fetches. -/
theorem storedWordIsFetchedNext : Obligations.StoredWordIsFetchedNext := by
  intro s x i hhost hfits hx hstore hI hword
  have hpc : s.PC.toNat ≤ 0xFFE := by omega
  have hnext : s.nextPC.toNat = s.PC.toNat + 2 := State.nextPC_toNat hpc
  replace hI : s.I = s.nextPC := hI
  let t := (s.store s.nextPC.toNat (s.regsUpTo x)).advance
  have hfirst : step s = .next t := by
    rw [step_known hhost hpc hstore, exec_ldMemStore_inside (by rw [hI, hnext]; exact hfits), hI]
  have htpc : t.PC.toNat ≤ 0xFFE := by
    change s.nextPC.toNat ≤ 0xFFE
    omega
  have hfetch : decodeWord t.fetchWord = .ok i := by rw [fetchWord_store_regsUpTo_advance s hx, hword]
  exact ⟨t, hfirst, rfl, step_known hhost htpc hfetch⟩

end Sys2Proof.Machine
end

section
/-! SUPPORT. The two directions of the word-level round trip: the fields of an encoded word feed the decoder, and a word
is put together again from its fields. -/

namespace Sys2Proof

/-- An `F-NNN` word from its fields (30_encoding R103). -/
theorem wordNNN_of_major {op : Word} {m : BitVec 4} (h : majorField op = m.toFin) : wordNNN m (nnnField op) = op := by
  have hm : op.toNat / 4096 % 16 = m.toNat := (majorField_val op).symm.trans (congrArg Fin.val h)
  apply BitVec.eq_of_toNat_eq
  rw [wordNNN_toNat, nnnField_toNat]
  omega

/-- An `F-XNN` or `F-XKK` word from its fields (30_encoding R103). -/
theorem wordXNN_of_major {op : Word} {m : BitVec 4} (h : majorField op = m.toFin) :
    wordXNN m (xField op) (nnField op) = op := by
  have hm : op.toNat / 4096 % 16 = m.toNat := (majorField_val op).symm.trans (congrArg Fin.val h)
  apply BitVec.eq_of_toNat_eq
  rw [wordXNN_toNat, xField_val, nnField_toNat]
  omega

/-- An `F-XYN` or `F-DXYN` word from its fields (30_encoding R103). -/
theorem wordXYN_of_major {op : Word} {m : BitVec 4} (h : majorField op = m.toFin) :
    wordXYN m (xField op) (yField op) (nField op) = op := by
  have hm : op.toNat / 4096 % 16 = m.toNat := (majorField_val op).symm.trans (congrArg Fin.val h)
  apply BitVec.eq_of_toNat_eq
  rw [wordXYN_toNat, xField_val, yField_val, nField_val]
  omega

/-- SYS keeps clear of the words of CLS and RET (30_encoding R105). -/
theorem wellFormed_sys {nnn : Addr12} : WellFormed (.sys nnn) ↔ nnn ≠ 0x0E0 ∧ nnn ≠ 0x0EE := by
  simp [WellFormed, Instr.wellFormed]

/-- The word of a well-formed instruction decodes to it (30_encoding R105). -/
theorem decodeWord_encodeWord {i : Instr} (hi : WellFormed i) : decodeWord (encodeWord i) = .ok i := by
  cases i with
  | cls | ret => rfl
  | sys nnn =>
    simp only [decodeWord, encodeWord, fields_wordNNN, wellFormed_sys.1 hi]
    rfl
  | jp _ | call _ | ldI _ | jpV0 _ =>
    simp only [decodeWord, encodeWord, fields_wordNNN]
    rfl
  | seImm _ _ | sneImm _ _ | ldImm _ _ | addImm _ _ | rnd _ _ =>
    simp only [decodeWord, encodeWord, fields_wordXNN]
    rfl
  | seReg _ _ | sneReg _ _ | drw _ _ _ =>
    simp only [decodeWord, encodeWord, fields_wordXYN]
    rfl
  | ldReg _ _ | orReg _ _ | andReg _ _ | xorReg _ _ | addReg _ _ | sub _ _ | shr _ _ | subn _ _ | shl _ _ =>
    simp only [decodeWord, decodeAlu, encodeWord, fields_wordXYN]
    rfl
  | skp _ | sknp _ =>
    simp only [decodeWord, decodeKeySkip, encodeWord, fields_wordXNN]
    rfl
  | ldVxDt _ | ldVxK _ | ldDtVx _ | ldStVx _ | addI _ | ldF _ | ldB _ | ldMemStore _ | ldMemLoad _ =>
    simp only [decodeWord, decodeMisc, encodeWord, fields_wordXNN]
    rfl

/-- Decoding the two bytes at the head of a stream is decoding their word (30_encoding R100, R102). -/
theorem decode_cons_cons_eq_ok {hi lo : Byte} {rest rest' : List Byte} {i : Instr} :
    decode (hi :: lo :: rest) = .ok (i, rest') ↔ decodeWord (wordOfBytes hi lo) = .ok i ∧ rest = rest' := by
  simp only [decode]
  split <;> simp [*]

end Sys2Proof
end

section
/-! SUPPORT. What the decoder's answer says of the word, said once: one leaf for each row of 30_encoding R105 and for each
gap of R108. -/

namespace Sys2Proof

/-- The sub-codes N of `8xyn` that no row has (30_encoding R108). -/
def aluGaps : List (Fin 16) := [0x8, 0x9, 0xA, 0xB, 0xC, 0xD, 0xF]

/-- The sub-codes of the `Exkk` rows (30_encoding R105). -/
def keySkipCodes : List Byte := [0x9E, 0xA1]

/-- The sub-codes of the `Fxkk` rows (30_encoding R105). -/
def miscCodes : List Byte := [0x07, 0x0A, 0x15, 0x18, 0x1E, 0x29, 0x33, 0x55, 0x65]

/-- The words that 30_encoding R108 lists, by their fields. -/
def ListedUnknown (op : Word) : Prop :=
  (majorField op = 0x5 ∧ nField op ≠ 0) ∨ (majorField op = 0x9 ∧ nField op ≠ 0) ∨
  (majorField op = 0x8 ∧ nField op ∈ aluGaps) ∨ (majorField op = 0xE ∧ nnField op ∉ keySkipCodes) ∨
  (majorField op = 0xF ∧ nnField op ∉ miscCodes)

theorem listedUnknown_compare {op : Word} (h : majorField op = 0x5 ∨ majorField op = 0x9) :
    ListedUnknown op ↔ nField op ≠ 0 := by
  rcases h with h | h <;> simp [ListedUnknown, h]

theorem listedUnknown_alu {op : Word} (h : majorField op = 0x8) : ListedUnknown op ↔ nField op ∈ aluGaps := by
  simp [ListedUnknown, h]

theorem listedUnknown_keySkip {op : Word} (h : majorField op = 0xE) : ListedUnknown op ↔ nnField op ∉ keySkipCodes := by
  simp [ListedUnknown, h]

theorem listedUnknown_misc {op : Word} (h : majorField op = 0xF) : ListedUnknown op ↔ nnField op ∉ miscCodes := by
  simp [ListedUnknown, h]

/-- No word of another major code is listed (30_encoding R108). -/
theorem not_listedUnknown {op : Word} (h : majorField op ∉ [0x5, 0x8, 0x9, 0xE, 0xF]) : ¬ ListedUnknown op := by
  simp only [List.mem_cons, not_or] at h
  simp [ListedUnknown, h]

/-- `Decoding op r`: what the answer `r` of the decoder says of the word `op`. -/
inductive Decoding (op : Word) : Except DecodeError Instr → Prop where
  | known {i : Instr} : WellFormed i → encodeWord i = op → ¬ ListedUnknown op → Decoding op (.ok i)
  | unknown : ListedUnknown op → Decoding op (.error (.unknown op))

namespace Decoding

variable {op : Word} {i : Instr}

/-- A word of a major code with a row for every word. -/
theorem of_full_major {m : Fin 16} (h : majorField op = m) (hm : m ∉ [0x5, 0x8, 0x9, 0xE, 0xF]) (hi : WellFormed i)
    (he : encodeWord i = op) : Decoding op (.ok i) :=
  .known hi he (not_listedUnknown (h ▸ hm))

/-- A `5xyn` or `9xyn` word, made of the fields that its row leaves free. -/
theorem of_compare {m : BitVec 4} (h : majorField op = m.toFin) (hm : m.toFin = 0x5 ∨ m.toFin = 0x9) (hi : WellFormed i)
    (he : encodeWord i = wordXYN m (xField op) (yField op) 0) :
    Decoding op (if nField op = 0 then .ok i else .error (.unknown op)) := by
  have hu := listedUnknown_compare (h ▸ hm)
  split
  next hn => exact .known hi (he.trans (hn ▸ wordXYN_of_major h)) fun hop => hu.1 hop hn
  next hn => exact .unknown (hu.2 hn)

/-- An `8xyn` word with the sub-code of a row. -/
theorem of_alu {n : Fin 16} (h : majorField op = 0x8) (hn : nField op = n) (hrow : n ∉ aluGaps) (hi : WellFormed i)
    (he : encodeWord i = wordXYN 0x8 (xField op) (yField op) n) : Decoding op (.ok i) := by
  subst hn
  exact .known hi (he.trans (wordXYN_of_major h)) (mt (listedUnknown_alu h).1 hrow)

/-- An `Exkk` or `Fxkk` word with one of the sub-codes that its major code has. -/
theorem of_subcode {m : BitVec 4} {codes : List Byte} {kk : Byte} (h : majorField op = m.toFin)
    (hu : ListedUnknown op ↔ nnField op ∉ codes) (hk : nnField op = kk) (hcode : kk ∈ codes) (hi : WellFormed i)
    (he : encodeWord i = wordXNN m (xField op) kk) : Decoding op (.ok i) := by
  subst hk
  exact .known hi (he.trans (wordXNN_of_major h)) fun hop => hu.1 hop hcode

end Decoding

/-- The `8xyn` words (30_encoding R105, R108). -/
theorem decoding_alu {op : Word} (h : majorField op = 0x8) : Decoding op (decodeAlu op) := by
  unfold decodeAlu
  dsimp only
  split
  case h_10 =>
    have hn : nField op ∈ aluGaps := by
      generalize nField op = n at *
      revert n
      decide
    exact .unknown ((listedUnknown_alu h).2 hn)
  all_goals exact .of_alu h ‹_› (by decide) rfl rfl

/-- The `Exkk` words (30_encoding R105, R108). -/
theorem decoding_keySkip {op : Word} (h : majorField op = 0xE) : Decoding op (decodeKeySkip op) := by
  unfold decodeKeySkip
  split_ifs
  case neg => exact .unknown ((listedUnknown_keySkip h).2 (by simp_all [keySkipCodes]))
  all_goals exact .of_subcode (m := 0xE) h (listedUnknown_keySkip h) ‹_› (by decide) rfl rfl

/-- The `Fxkk` words (30_encoding R105, R108). -/
theorem decoding_misc {op : Word} (h : majorField op = 0xF) : Decoding op (decodeMisc op) := by
  unfold decodeMisc
  dsimp only
  split_ifs
  case neg => exact .unknown ((listedUnknown_misc h).2 (by simp_all [miscCodes]))
  all_goals exact .of_subcode (m := 0xF) h (listedUnknown_misc h) ‹_› (by decide) rfl rfl

/-- A word of major code 0 (30_encoding R105: CLS and RET before SYS). -/
theorem decoding_fixed {op : Word} (h : majorField op = 0x0) :
    Decoding op (if nnnField op = 0x0E0 then .ok .cls else if nnnField op = 0x0EE then .ok .ret
      else .ok (.sys (nnnField op))) := by
  have hw := wordNNN_of_major (m := 0x0) h
  split_ifs with hcls hret
  · exact .of_full_major h (by decide) rfl (by rwa [hcls] at hw)
  · exact .of_full_major h (by decide) rfl (by rwa [hret] at hw)
  · exact .of_full_major h (by decide) (wellFormed_sys.2 ⟨hcls, hret⟩) hw

/-- What decoding a word says of it: one case for each major code of 30_encoding R105, `h_1` for 0x0 to `h_16` for
0xF. -/
theorem decoding (op : Word) : Decoding op (decodeWord op) := by
  unfold decodeWord
  dsimp only
  split
  case h_1 h => exact decoding_fixed h
  case h_2 h | h_3 h | h_11 h | h_12 h => exact .of_full_major h (by decide) rfl (wordNNN_of_major h)
  case h_4 h | h_5 h | h_7 h | h_8 h | h_13 h => exact .of_full_major h (by decide) rfl (wordXNN_of_major h)
  case h_6 h => exact .of_compare (m := 0x5) h (by decide) rfl rfl
  case h_9 h => exact decoding_alu h
  case h_10 h => exact .of_compare (m := 0x9) h (by decide) rfl rfl
  case h_14 h => exact .of_full_major h (by decide) rfl (wordXYN_of_major h)
  case h_15 h => exact decoding_keySkip h
  case h_16 =>
    have h : majorField op = 0xF := by
      generalize majorField op = m at *
      revert m
      decide
    exact decoding_misc h

/-- A word that decodes is the word of its instruction, and is not listed (30_encoding R105, R109). -/
theorem decodeWord_eq_ok {op : Word} {i : Instr} (h : decodeWord op = .ok i) :
    WellFormed i ∧ encodeWord i = op ∧ ¬ ListedUnknown op := by
  have hd : Decoding op (.ok i) := h ▸ decoding op
  cases hd with
  | known hi he hu => exact ⟨hi, he, hu⟩

/-- A word that does not decode is unknown, and is listed (30_encoding R105, R108). -/
theorem decodeWord_eq_error {op : Word} {e : DecodeError} (h : decodeWord op = .error e) :
    e = .unknown op ∧ ListedUnknown op := by
  have hd : Decoding op (.error e) := h ▸ decoding op
  cases hd with
  | unknown hu => exact ⟨rfl, hu⟩

/-- The list in the numbers of 30_encoding R108. -/
theorem listedUnknown_iff (op : Word) :
    ListedUnknown op ↔
      (op.toNat / 0x1000 = 0x5 ∧ op.toNat % 0x10 ≠ 0) ∨ (op.toNat / 0x1000 = 0x9 ∧ op.toNat % 0x10 ≠ 0) ∨
      (op.toNat / 0x1000 = 0x8 ∧ op.toNat % 0x10 ∈ [0x8, 0x9, 0xA, 0xB, 0xC, 0xD, 0xF]) ∨
      (op.toNat / 0x1000 = 0xE ∧ op.toNat % 0x100 ∉ [0x9E, 0xA1]) ∨
      (op.toNat / 0x1000 = 0xF ∧ op.toNat % 0x100 ∉ [0x07, 0x0A, 0x15, 0x18, 0x1E, 0x29, 0x33, 0x55, 0x65]) := by
  have hop := op.isLt
  have hmajor : op.toNat / 4096 % 16 = op.toNat / 4096 := by omega
  simp [ListedUnknown, aluGaps, keySkipCodes, miscCodes, Fin.ext_iff, BitVec.toNat_eq, majorField_val, nField_val,
    nnField_toNat, hmajor]

end Sys2Proof
end

section
/-! PROOF. The decoder and the encoder are inverse, and the unknown words (30_encoding R102-R109). -/

namespace Sys2Proof

/-- Settles O2: the bytes of an instruction make its word, and the word's fields lead the decoder back to it. -/
theorem decodeOfEncodeIsIdentity : Obligations.DecodeOfEncodeIsIdentity := by
  intro i rest hi
  refine decode_cons_cons_eq_ok.2 ⟨?_, rfl⟩
  rw [wordOfBytes_bytes]
  exact decodeWord_encodeWord hi

/-- Settles O3, by the cases of the decoder. -/
theorem encodeOfDecodeIsIdentity : Obligations.EncodeOfDecodeIsIdentity := by
  intro op i h
  obtain ⟨hi, he, -⟩ := decodeWord_eq_ok h
  exact ⟨hi, he⟩

/-- Settles O4: a word that decodes is not listed, and every other word is. -/
theorem unknownWordsAreThoseListed : Obligations.UnknownWordsAreThoseListed := by
  intro op
  dsimp only
  rw [← listedUnknown_iff]
  cases h : decodeWord op with
  | ok i =>
    obtain ⟨-, -, hu⟩ := decodeWord_eq_ok h
    exact ⟨.inl ⟨i, rfl⟩, by simp [hu]⟩
  | error e =>
    obtain ⟨rfl, hu⟩ := decodeWord_eq_error h
    exact ⟨.inr rfl, iff_of_true rfl hu⟩

/-- Settles O1, by running the decoder. -/
theorem sampleWordsDecode : Obligations.SampleWordsDecode := by
  unfold Obligations.SampleWordsDecode
  decide

end Sys2Proof
end

section
/-! SUPPORT. The record of a fault that an instruction or a step raises (60_exceptions R401). -/

namespace Sys2Proof.Machine

open Sys2Proof

/-- A range check that stops a step records its PC and its opcode (60_exceptions R401). -/
theorem checkRange_eq_fault {op : Word} {n : Nat} {s t : State} {f : Fault}
    (h : checkRange op n s (.next t) = .fault f) : f.pc = s.PC ∧ f.op = some op := by
  rcases checkRange_cases op n s (.next t) with ⟨-, e⟩ | ⟨-, -, e⟩ <;> rw [e] at h
  · cases h
  · obtain rfl := Host.Outcome.fault.inj h
    exact ⟨rfl, rfl⟩

/-- A digit operand that stops a step records its PC and its opcode (60_exceptions R401). -/
theorem nibbleOperand_eq_fault {op : Word} {v : Byte} {s : State} {k : Fin 16 → Outcome} {f : Fault}
    (h : nibbleOperand op v s k = .fault f) (hk : ∀ d, k d ≠ .fault f) : f.pc = s.PC ∧ f.op = some op := by
  rcases nibbleOperand_cases op v s k with ⟨d, -, e⟩ | ⟨-, e⟩ <;> rw [e] at h
  · exact absurd h (hk d)
  · obtain rfl := Host.Outcome.fault.inj h
    exact ⟨rfl, rfl⟩

/-- The record of a fault that an instruction raises (60_exceptions R401). -/
theorem exec_eq_fault {i : Instr} {s : State} {f : Fault} (h : exec i s = .fault f) :
    f.pc = s.PC ∧ f.op = some (encodeWord i) := by
  cases i with
  | ret =>
    simp only [exec, execRet] at h
    split at h
    next =>
      obtain rfl := Host.Outcome.fault.inj h
      exact ⟨rfl, rfl⟩
    next => cases h
  | call nnn =>
    simp only [exec, execCall] at h
    split at h
    next =>
      obtain rfl := Host.Outcome.fault.inj h
      exact ⟨rfl, rfl⟩
    next => cases h
  | ldVxK x =>
    simp only [exec, execLdVxK] at h
    split at h <;> cases h
  | drw _ _ _ | ldB _ | ldMemStore _ | ldMemLoad _ => exact checkRange_eq_fault h
  | ldF _ | skp _ | sknp _ =>
    simp only [exec, execLdF, execSkp, execSknp] at h
    exact nibbleOperand_eq_fault h fun _ hk => by cases hk
  | _ => cases h

/-- The record of a fault of a step that has fetched its word (60_exceptions R401). -/
theorem cpuStep_eq_fault {p : Config.UnknownOpcodePolicy} {s : State} {f : Fault} (hpc : s.PC.toNat ≤ 0xFFE)
    (h : cpuStep p s = .fault f) : f.pc = s.PC ∧ f.op = some s.fetchWord := by
  cases hd : decodeWord s.fetchWord with
  | ok i =>
    obtain ⟨-, he, -⟩ := decodeWord_eq_ok hd
    rw [cpuStep_known hpc hd] at h
    exact he ▸ exec_eq_fault h
  | error e =>
    rw [cpuStep_unknown hpc hd] at h
    cases p with
    | fault =>
      obtain rfl := Host.Outcome.fault.inj h
      exact ⟨rfl, rfl⟩
    | noOpAdvance => cases h

end Sys2Proof.Machine
end

section
/-! PROOF. The step around an instruction: its decoded word and its fetch fault (30_encoding R100, R101, R112). -/

namespace Sys2Proof.Machine

open Sys2Proof

/-- Settles O5: the two bytes decode as the fetched word does. -/
theorem stepRunsDecodedInstruction : Obligations.StepRunsDecodedInstruction := by
  intro s i hhost hpc h
  exact step_known hhost hpc (decode_cons_cons_eq_ok.1 h).1

/-- Settles O7: a fetch fault alone records no opcode, and a PC that fetches raises none. -/
theorem fetchBeyondMemoryFaults : Obligations.FetchBeyondMemoryFaults := by
  intro p s
  refine ⟨fun hpc => ?_, fun hpc pc a h => ?_⟩
  · rw [cpuStep_outside hpc]
    congr 2
    split <;> omega
  · obtain ⟨-, hop⟩ := cpuStep_eq_fault hpc h
    cases hop

end Sys2Proof.Machine
end

section
/-! SUPPORT. What each control flow instruction answers, said once (40_control_flow), and how an instruction has the word
of its Encoding line. -/

namespace Sys2Proof.Machine

open Sys2Proof

theorem exec_sys (nnn : Addr12) (s : State) : exec (.sys nnn) s = .next s.advance := rfl

theorem exec_jp (nnn : Addr12) (s : State) : exec (.jp nnn) s = .next (s.setPC (addrOperand nnn)) := rfl

theorem exec_jpV0 (nnn : Addr12) (s : State) :
    exec (.jpV0 nnn) s = .next (s.setPC (addrOperand nnn + zext16 (s.reg 0))) := rfl

/-- CALL with room on the stack (40_control_flow R205). -/
theorem exec_call_room (nnn : Addr12) {s : State} (h : s.S.length < 16) :
    exec (.call nnn) s = .next ((s.setStack (s.S ++ [s.nextPC])).setPC (addrOperand nnn)) :=
  if_neg (Nat.not_le_of_lt h)

/-- CALL on a full stack (40_control_flow R205). -/
theorem exec_call_full (nnn : Addr12) {s : State} (h : 16 ≤ s.S.length) :
    exec (.call nnn) s = .fault (.stackOverflow s.PC (encodeWord (.call nnn))) :=
  if_pos h

/-- A CALL that completes has pushed the address after it (40_control_flow R205). -/
theorem stack_of_exec_call {nnn : Addr12} {s t : State} (h : exec (.call nnn) s = .next t) : t.S = s.S ++ [s.PC + 2] := by
  by_cases hroom : s.S.length < 16
  · rw [exec_call_room nnn hroom] at h
    obtain rfl := Host.Outcome.next.inj h
    rfl
  · rw [exec_call_full nnn (Nat.le_of_not_lt hroom)] at h
    cases h

/-- RET on a stack whose last entry is `v` (40_control_flow R203). -/
theorem exec_ret_append {s : State} {rest : List Word} {v : Word} (h : s.S = rest ++ [v]) :
    exec .ret s = .next ((s.setStack rest).setPC v) := by
  simp [exec, execRet, h]

/-- RET on an empty stack (40_control_flow R203). -/
theorem exec_ret_nil {s : State} (h : s.S = []) : exec .ret s = .fault (.stackUnderflow s.PC 0x00EE) := by
  simp only [exec, execRet, h]
  rfl

/-- The target of BNNN is the sum as a number: two operands of 12 and 8 bits do not wrap (40_control_flow R206). -/
theorem jpV0_target_toNat (nnn : Addr12) (v : Byte) :
    (addrOperand nnn + zext16 v).toNat = nnn.toNat + v.toNat := by
  rw [BitVec.toNat_add, addrOperand_toNat, zext16_toNat]
  omega

end Sys2Proof.Machine

namespace Sys2Proof.Safety

open Sys2Proof Sys2Proof.Machine

/-- A skip moves PC alone: by 4 where its condition holds, by 2 where it does not (30_encoding R106). -/
theorem skipIf_answers {c : Bool} {skips goesOn : Prop} (s : State) (hskip : skips → c = true)
    (hnext : goesOn → c = false) :
    ∃ t, skipIf c s = .next t ∧ OnlyChanges [.PC] s t ∧ (skips → t.PC = s.PC + 4) ∧ (goesOn → t.PC = s.PC + 2) :=
  ⟨_, skipIf_eq c s, .setPC s _, fun h => by simp [hskip h], fun h => by simp [hnext h]⟩

/-- A well-formed instruction has the word that encodes it (30_encoding R105). -/
theorem HasWord.of_wellFormed {i : Instr} {w : Nat} (hi : WellFormed i) (hw : (encodeWord i).toNat = w) : HasWord i w :=
  ⟨hw, decodeWord_encodeWord hi⟩

end Sys2Proof.Safety
end

section
/-! PROOF. The control flow instructions one by one (40_control_flow R201-R210). -/

namespace Sys2Proof.Safety

open Sys2Proof Sys2Proof.Machine

/-- Settles O28: SYS is the bare move to the next instruction. -/
theorem sysOnlyAdvancesPc : Obligations.SysOnlyAdvancesPc := by
  intro nnn s
  refine ⟨fun hcls hret => .of_wellFormed (wellFormed_sys.2 ⟨hcls, hret⟩) ?_, _, exec_sys nnn s, rfl, .setPC s _⟩
  exact (wordNNN_toNat 0x0 nnn).trans (Nat.zero_add _)

/-- Settles O30: the target is NNN, zero-extended. -/
theorem jumpSetsPc : Obligations.JumpSetsPc := fun nnn s =>
  ⟨.of_wellFormed rfl (wordNNN_toNat 0x1 nnn), _, exec_jp nnn s, addrOperand_toNat nnn, .setPC s _⟩

/-- Settles O31: the sum of NNN and V0 fits in 16 bits. -/
theorem jumpWithOffsetAddsV0 : Obligations.JumpWithOffsetAddsV0 := fun nnn s =>
  ⟨.of_wellFormed rfl (wordNNN_toNat 0xB nnn), _, exec_jpV0 nnn s, jpV0_target_toNat nnn (s.reg 0), .setPC s _⟩

/-- Settles O32: CALL with room on the stack and CALL on a full one. -/
theorem callPushesReturnAddress : Obligations.CallPushesReturnAddress := by
  intro nnn s
  refine ⟨.of_wellFormed rfl (wordNNN_toNat 0x2 nnn), fun hroom => ?_, fun hfull => exec_call_full nnn hfull.ge⟩
  have hexec := exec_call_room nnn hroom
  exact ⟨_, hexec, rfl, addrOperand_toNat nnn, (exec_effect hexec).onlyChanges⟩

/-- Settles O33: RET on a stack with a last entry and RET on an empty one. -/
theorem returnPopsIntoPc : Obligations.ReturnPopsIntoPc := by
  refine ⟨.of_wellFormed rfl rfl, fun s => ⟨fun rest v hS => ?_, exec_ret_nil⟩⟩
  have hexec := exec_ret_append hS
  exact ⟨_, hexec, rfl, rfl, (exec_effect hexec).onlyChanges⟩

/-- Settles O35: SE and SNE are skips on the comparison of V[X] with NN. -/
theorem immediateSkipsCompare : Obligations.ImmediateSkipsCompare := fun x nn s =>
  ⟨.of_wellFormed rfl (wordXNN_toNat 0x3 x nn), .of_wellFormed rfl (wordXNN_toNat 0x4 x nn),
    skipIf_answers s beq_iff_eq.2 beq_false_of_ne, skipIf_answers s bne_iff_ne.2 bne_eq_false_iff_eq.2⟩

/-- Settles O36: SE and SNE are skips on the comparison of V[X] with V[Y]. -/
theorem registerSkipsCompare : Obligations.RegisterSkipsCompare := fun x y s =>
  ⟨.of_wellFormed rfl (wordXYN_toNat 0x5 x y 0), .of_wellFormed rfl (wordXYN_toNat 0x9 x y 0),
    skipIf_answers s beq_iff_eq.2 beq_false_of_ne, skipIf_answers s bne_iff_ne.2 bne_eq_false_iff_eq.2⟩

end Sys2Proof.Safety
end

section
/-! PROOF. The return stack grows and shrinks at its end only, so a RET at the depth just after a CALL comes back to it
(40_control_flow R203, R205, R211; 10_state R36). -/

namespace Sys2Proof.Safety

open Sys2Proof Sys2Proof.Machine

/-- An instruction keeps the stack as the bottom of the new one, or drops the last entry (40_control_flow R203, R205). -/
theorem Effect.stack {i : Instr} {s t : State} (h : Effect i s t) : s.S <+: t.S ∨ t.S = s.S.dropLast := by
  induction h with
  | refl => exact .inl (List.prefix_refl _)
  | push => exact .inl (List.prefix_append _ _)
  | pop => exact .inr rfl
  | setReg _ _ _ ih | setI _ _ _ ih | setPC _ _ ih | setDT _ _ _ ih | setST _ _ _ ih | setFB _ _ _ ih | store _ _ _ ih
  | countDraw _ _ ih => exact ih

/-- So does a step that completes, under either policy. -/
theorem stack_cpuStep {p : Config.UnknownOpcodePolicy} {s t : State} (h : cpuStep p s = .next t) :
    s.S <+: t.S ∨ t.S = s.S.dropLast := by
  obtain ⟨-, ⟨i, -, hexec⟩ | ⟨_, -, -, rfl⟩⟩ := cpuStep_eq_next h
  · exact (exec_effect hexec).stack
  · exact .inl (List.prefix_refl _)

/-- So does every transaction but a reset. -/
theorem stack_hostStep {p : Config.UnknownOpcodePolicy} {s t : State} (hreset : s.host.head? ≠ some .reset)
    (h : hostStep p s = .next t) : s.S <+: t.S ∨ t.S = s.S.dropLast := by
  obtain ⟨u, rest, rfl, hu⟩ := hostStep_effect h
  suffices s.S <+: u.S ∨ u.S = s.S.dropLast from this
  cases hu with
  | step hstep => exact stack_cpuStep hstep
  | reset hhead => exact absurd hhead hreset
  | load | tick | key | unchanged => exact .inl (List.prefix_refl _)

/-- Settles O57: a stack that has grown still has `l` at its bottom, and one that has lost its last entry has too, as long
as it holds `l.length` entries. -/
theorem transactionKeepsTheStackBelow : Obligations.TransactionKeepsTheStackBelow := by
  intro p s t l hreset h hl hlen
  rcases stack_hostStep hreset h with hgrown | hdropped
  · exact hl.trans hgrown
  · rw [hdropped] at hlen ⊢
    exact List.prefix_of_prefix_length_le hl (List.dropLast_prefix _) hlen

/-- A run that stays above the depth `d` keeps any `d + 1` entries at the bottom of the stack (40_control_flow R211). -/
theorem DeepRun.keeps_bottom {d : Nat} {s u : State} (h : DeepRun d s u) {l : List Word} (hlen : l.length = d + 1)
    (hl : l <+: s.S) : l <+: u.S := by
  induction h with
  | refl => exact hl
  | next t u _ hreset hstep hdeep ih =>
    exact transactionKeepsTheStackBelow _ t u l hreset hstep ih (hlen.trans_le hdeep)

/-- Settles O34: the stack just after the CALL is still at the bottom after the run, so at that depth it is the stack, and
RET pops the CALL's entry. -/
theorem returnComesBackToTheCall : Obligations.ReturnComesBackToTheCall := by
  intro nnn s t u hcall hrun hdepth
  have hpushed : t.S = s.S ++ [s.PC + 2] := stack_of_exec_call hcall
  have hlen : t.S.length = s.S.length + 1 := by simp [hpushed]
  have hbottom : t.S <+: u.S := hrun.keeps_bottom hlen (List.prefix_refl _)
  have hstack : t.S = u.S := hbottom.eq_of_length (hlen.trans hdepth.symm)
  exact ⟨_, exec_ret_append (hstack.symm.trans hpushed), rfl, rfl⟩

end Sys2Proof.Safety
end

section
/-! PROOF. Zero-filled memory runs as SYS up to its end and faults there (40_control_flow R201, corner case). -/

namespace Sys2Proof.Machine

open Sys2Proof

/-- One more step of a run is a step at the state it has reached. -/
theorem run_succ_of_next {M : Host.Core} {n : Nat} {s t : M.State} (h : M.run n s = .next t) :
    M.run (n + 1) s = M.step t := by
  induction n generalizing s with
  | zero =>
    obtain rfl := Host.Outcome.next.inj h
    rw [Host.Core.run]
    cases M.step s <;> rfl
  | succ n ih =>
    rw [Host.Core.run] at h ⊢
    cases hs : M.step s with
    | next u =>
      rw [hs] at h
      exact ih h
    | fault f | refused r =>
      rw [hs] at h
      cases h

theorem State.setPC_self (s : State) : s.setPC s.PC = s := rfl

/-- With no transaction written down, a step at a PC above 0xFFE is the fetch fault (30_encoding R101). -/
theorem step_outside {s : State} (hhost : s.host = []) (hpc : 0xFFE < s.PC.toNat) :
    step s = .fault (.outOfBounds s.PC none (max s.PC.toNat 0x1000)) := by
  rw [step, hostStep, hhost]
  exact cpuStep_outside hpc

section ZeroedMemory

variable {s : State} (hhost : s.host = []) (hzero : ∀ a, 0x200 ≤ a → a < 0x1000 → s.byteAt a = 0)
include hhost hzero

/-- A step in zeroed memory is SYS 000: it moves PC on and does nothing else (40_control_flow R201). -/
theorem step_zeroed {pc : Word} (hlow : 0x200 ≤ pc.toNat) (hhigh : pc.toNat ≤ 0xFFE) :
    step (s.setPC pc) = .next (s.setPC (pc + 2)) := by
  have hhi : (s.setPC pc).byteAt pc.toNat = 0 := hzero _ hlow (by omega)
  have hlo : (s.setPC pc).byteAt (pc.toNat + 1) = 0 := hzero _ (by omega) (by omega)
  have hfetch : (s.setPC pc).fetchWord = 0 := congrArg₂ wordOfBytes hhi hlo
  have hsys : decodeWord (s.setPC pc).fetchWord = .ok (.sys 0) := by rw [hfetch]; rfl
  exact (step_known (s := s.setPC pc) hhost hhigh hsys).trans (exec_sys 0 _)

/-- `n` steps in zeroed memory from 0x200 on lead to the address `2 * n` bytes further. -/
theorem run_zeroed {n : Nat} (hn : n ≤ 1792) :
    core.run n (s.setPC 0x200) = .next (s.setPC (.ofNat 16 (0x200 + 2 * n))) := by
  induction n with
  | zero => rfl
  | succ n ih =>
    have hpc : (BitVec.ofNat 16 (0x200 + 2 * n)).toNat = 0x200 + 2 * n := Nat.mod_eq_of_lt (by omega)
    have hnext : BitVec.ofNat 16 (0x200 + 2 * n) + 2 = .ofNat 16 (0x200 + 2 * (n + 1)) :=
      (BitVec.ofNat_add _ 2).symm
    rw [run_succ_of_next (ih (by omega)), ← hnext]
    exact step_zeroed hhost hzero (by omega) (by omega)

end ZeroedMemory

/-- Settles O29: 1792 steps of SYS end at 0x1000, where the fetch faults. -/
theorem zeroedMemoryRunsToItsEnd : Obligations.ZeroedMemoryRunsToItsEnd := by
  intro s hhost hpc hzero
  have hrun : core.run 1792 s = .next (s.setPC 0x1000) := by
    have h := run_zeroed hhost hzero (le_refl 1792)
    rwa [← hpc, State.setPC_self] at h
  have hfetch : step (s.setPC 0x1000) = .fault (.outOfBounds 0x1000 none 0x1000) :=
    step_outside (s := s.setPC 0x1000) hhost (by rw [State.setPC_PC]; decide)
  exact ⟨hrun, (run_succ_of_next hrun).trans hfetch⟩

end Sys2Proof.Machine
end

section
/-! SUPPORT. A step with a draw that the host has written down, and what the data instructions answer, said once for each
shared form of an outcome (41_data R230-R252). -/

namespace Sys2Proof.Machine

open Sys2Proof

/-- A `step` transaction at a PC that fetches a known word is that instruction, and the host goes on with the rest of its
list (30_encoding R112; 60_exceptions R440). -/
theorem step_known_of_draw {s : State} {i : Instr} {r : Byte} {rest : List Transaction}
    (hhost : s.host = .step r :: rest) (hpc : s.PC.toNat ≤ 0xFFE) (h : decodeWord s.fetchWord = .ok i) :
    step s = popHost rest (exec i s) := by
  rw [step, hostStep, hhost]
  exact congrArg (popHost rest) (cpuStep_known hpc h)

/-- The draw is the one that the host's `step` carries (41_data R252). -/
theorem State.rnd_of_draw {s : State} {r : Byte} {rest : List Transaction} (hhost : s.host = .step r :: rest) :
    s.rnd = r := by
  rw [State.rnd, hhost]

/-! ### Flags and differences as numbers (41_data R250) -/

theorem flagByte_carry_toNat (a b : Byte) :
    (flagByte (carry a b)).toNat = if 255 < a.toNat + b.toNat then 1 else 0 := by
  simp only [flagByte_toNat, carry, decide_eq_true_eq]

theorem flagByte_notBorrow_toNat (a b : Byte) :
    (flagByte (notBorrow a b)).toNat = if b.toNat ≤ a.toNat then 1 else 0 := by
  simp only [flagByte_toNat, notBorrow, decide_eq_true_eq]

theorem flagByte_lowBit_toNat (a : Byte) : (flagByte (lowBit a)).toNat = a.toNat % 2 := by
  simp only [flagByte_toNat, lowBit, BitVec.getLsbD, Nat.testBit_zero, decide_eq_true_eq]
  split <;> omega

theorem flagByte_highBit_toNat (a : Byte) : (flagByte (highBit a)).toNat = a.toNat / 128 := by
  simp only [flagByte_toNat, highBit, BitVec.getLsbD, Nat.testBit_eq_decide_div_mod_eq, decide_eq_true_eq]
  split <;> omega

/-- The difference of two bytes is the integers' difference modulo 256 (41_data R237, R239). -/
theorem toNat_sub_eq_emod (a b : Byte) : ((a - b).toNat : Int) = ((a.toNat : Int) - b.toNat) % 256 := by
  rw [BitVec.toNat_sub]
  omega

end Sys2Proof.Machine

namespace Sys2Proof.Safety

open Sys2Proof Sys2Proof.Machine

/-- An `8xyn` instruction has the word of its Encoding line (41_data; 30_encoding R105). -/
theorem HasWord.of_aluWord {i : Instr} {x y : Reg} {n : Fin 16} (hi : WellFormed i)
    (hword : encodeWord i = wordXYN 0x8 x y n) : HasWord i (0x8000 + n.val + x.val * 0x100 + y.val * 0x10) := by
  refine .of_wellFormed hi ?_
  rw [hword, wordXYN_toNat]
  show 0x8 * 4096 + x.val * 256 + y.val * 16 + n.val = _
  omega

section Answers

variable {i : Instr} {x : Reg} {s : State}

/-- An instruction that ends in a result without a flag, started from a state `u` with PC untouched (41_data R230-R235,
R251). -/
theorem resultOnly_answers {v : Byte} {u : State} (hexec : exec i s = resultOnly x v u) (hpc : u.PC = s.PC) :
    ∃ t, exec i s = .next t ∧ t.reg x = v ∧ RegsExcept (writtenRegs i) s t ∧ t.PC = s.PC + 2 ∧
      OnlyChanges (writtenParts i) s t := by
  rw [resultOnly_eq] at hexec
  have heffect := exec_effect hexec
  exact ⟨_, hexec, by simp, heffect.regsExcept, by simp [hpc], heffect.onlyChanges⟩

/-- The same, with the result told bit by bit (41_data R233-R235, R251). -/
theorem resultOnly_answers_bits {v : Byte} {u : State} {bit : Nat → Bool} (hexec : exec i s = resultOnly x v u)
    (hpc : u.PC = s.PC) (hbit : ∀ b, v.getLsbD b = bit b) :
    ∃ t, exec i s = .next t ∧ (∀ b, (t.reg x).getLsbD b = bit b) ∧ RegsExcept (writtenRegs i) s t ∧
      t.PC = s.PC + 2 ∧ OnlyChanges (writtenParts i) s t := by
  obtain ⟨t, hnext, hreg, hframe⟩ := resultOnly_answers hexec hpc
  exact ⟨t, hnext, fun b => hreg ▸ hbit b, hframe⟩

/-- An instruction that ends in a result and a flag, the flag written last (41_data R250). -/
theorem resultAndFlag_answers {v : Byte} {c : Bool} (hexec : exec i s = resultAndFlag x v c s) :
    ∃ t, exec i s = .next t ∧ (x ≠ 15 → t.reg x = v) ∧ t.reg 15 = flagByte c ∧ RegsExcept (writtenRegs i) s t ∧
      t.PC = s.PC + 2 ∧ OnlyChanges (writtenParts i) s t := by
  rw [resultAndFlag_eq] at hexec
  have heffect := exec_effect hexec
  have hresult (hx : x ≠ flagReg) : ((s.setReg x v).setReg flagReg (flagByte c)).reg x = v := by
    rw [State.reg_setReg_other _ _ hx, State.reg_setReg_self]
  exact ⟨_, hexec, hresult, State.reg_setReg_self _ flagReg _, heffect.regsExcept, rfl, heffect.onlyChanges⟩

/-- An instruction that subtracts the byte `b` from the byte `a` (41_data R237, R239). -/
theorem subtraction_answers {a b : Byte} (hexec : exec i s = resultAndFlag x (a - b) (notBorrow a b) s) :
    ∃ t, exec i s = .next t ∧ (x ≠ 15 → ((t.reg x).toNat : Int) = ((a.toNat : Int) - b.toNat) % 256) ∧
      (t.reg 15).toNat = (if b.toNat ≤ a.toNat then 1 else 0) ∧ RegsExcept (writtenRegs i) s t ∧
      t.PC = s.PC + 2 ∧ OnlyChanges (writtenParts i) s t := by
  obtain ⟨t, hnext, hresult, hflag, hframe⟩ := resultAndFlag_answers hexec
  exact ⟨t, hnext, fun hx => hresult hx ▸ toNat_sub_eq_emod a b, hflag ▸ flagByte_notBorrow_toNat a b, hframe⟩

end Answers

end Sys2Proof.Safety
end

section
/-! PROOF. The step with its draw (41_data R252; 60_exceptions R440) and the data instructions one by one (41_data
R230-R251). -/

namespace Sys2Proof.Safety

open Sys2Proof Sys2Proof.Machine

/-- Settles O6: a `step` transaction is `exec i` with the host's list moved on, and a fault passes through that. -/
theorem stepTransactionRunsWithItsDraw : Obligations.StepTransactionRunsWithItsDraw := by
  intro s i r rest hhost hpc hdecode
  have hstep := step_known_of_draw hhost hpc (decode_cons_cons_eq_ok.1 hdecode).1
  refine ⟨State.rnd_of_draw hhost, fun t hexec => ?_, fun f hexec => ?_⟩
  · rw [hstep, hexec, popHost]
  · rw [hstep, hexec, popHost]

/-- Settles O38: both loads are results without a flag. -/
theorem loadsCopyIntoRegister : Obligations.LoadsCopyIntoRegister := fun x _ nn _ =>
  ⟨.of_wellFormed rfl (wordXNN_toNat 0x6 x nn), .of_aluWord (n := 0) rfl rfl, resultOnly_answers rfl rfl,
    resultOnly_answers rfl rfl⟩

/-- Settles O39: the result is the sum of two bytes, with no flag. -/
theorem addImmediateWritesNoFlag : Obligations.AddImmediateWritesNoFlag := by
  intro x nn s
  obtain ⟨t, hnext, hreg, hframe⟩ := resultOnly_answers (i := .addImm x nn) (s := s) rfl rfl
  exact ⟨.of_wellFormed rfl (wordXNN_toNat 0x7 x nn), t, hnext, hreg ▸ BitVec.toNat_add _ _, hframe⟩

/-- Settles O40: a bit of the result is the connective of the operands' bits. -/
theorem logicWorksBitByBit : Obligations.LogicWorksBitByBit := fun _ _ _ =>
  ⟨.of_aluWord (n := 1) rfl rfl, .of_aluWord (n := 2) rfl rfl, .of_aluWord (n := 3) rfl rfl,
    resultOnly_answers_bits rfl rfl fun _ => BitVec.getLsbD_or,
    resultOnly_answers_bits rfl rfl fun _ => BitVec.getLsbD_and,
    resultOnly_answers_bits rfl rfl fun _ => BitVec.getLsbD_xor⟩

/-- Settles O41: the result is the sum of two bytes, and the flag their carry. -/
theorem addRegistersSetsCarry : Obligations.AddRegistersSetsCarry := by
  intro x y s
  obtain ⟨t, hnext, hresult, hflag, hframe⟩ := resultAndFlag_answers (i := .addReg x y) (s := s) rfl
  exact ⟨.of_aluWord (n := 4) rfl rfl, t, hnext, fun hx => hresult hx ▸ BitVec.toNat_add _ _,
    hflag ▸ flagByte_carry_toNat _ _, hframe⟩

/-- Settles O42: V[Y] is subtracted from V[X]. -/
theorem subtractSetsNotBorrow : Obligations.SubtractSetsNotBorrow := fun _ _ _ =>
  ⟨.of_aluWord (n := 5) rfl rfl, subtraction_answers rfl⟩

/-- Settles O43: V[X] is subtracted from V[Y]. -/
theorem subtractReversedSetsNotBorrow : Obligations.SubtractReversedSetsNotBorrow := fun _ _ _ =>
  ⟨.of_aluWord (n := 7) rfl rfl, subtraction_answers rfl⟩

/-- Settles O44: the result is V[X] shifted right by one, and the flag its low bit. -/
theorem shiftRightMovesLowBitToFlag : Obligations.ShiftRightMovesLowBitToFlag := by
  intro x y s
  obtain ⟨t, hnext, hresult, hflag, hframe⟩ := resultAndFlag_answers (i := .shr x y) (s := s) rfl
  refine ⟨.of_aluWord (n := 6) rfl rfl, t, hnext, fun hx => ?_, hflag ▸ flagByte_lowBit_toNat _, hframe⟩
  rw [hresult hx, BitVec.toNat_ushiftRight, Nat.shiftRight_one]

/-- Settles O45: the result is V[X] shifted left by one, and the flag its high bit. -/
theorem shiftLeftMovesHighBitToFlag : Obligations.ShiftLeftMovesHighBitToFlag := by
  intro x y s
  obtain ⟨t, hnext, hresult, hflag, hframe⟩ := resultAndFlag_answers (i := .shl x y) (s := s) rfl
  refine ⟨.of_aluWord (n := 0xE) rfl rfl, t, hnext, fun hx => ?_, hflag ▸ flagByte_highBit_toNat _, hframe⟩
  rw [hresult hx, BitVec.toNat_shiftLeft, Nat.shiftLeft_eq, Nat.pow_one]

/-- Settles O46: a bit of the result is the conjunction of the draw's bit and the mask's; taking the draw moves the draw
counter alone. -/
theorem randomIsDrawAndMask : Obligations.RandomIsDrawAndMask := fun x nn _ =>
  ⟨.of_wellFormed rfl (wordXNN_toNat 0xC x nn), resultOnly_answers_bits rfl rfl fun _ => BitVec.getLsbD_and⟩

end Sys2Proof.Safety
end

section
/-! SUPPORT. What each memory and index instruction answers, said once (42_memory_index R260-R266). -/

namespace Sys2Proof.Machine

open Sys2Proof

theorem exec_ldI (nnn : Addr12) (s : State) : exec (.ldI nnn) s = .next (s.setI (addrOperand nnn)).advance := rfl

theorem exec_addI (x : Reg) (s : State) : exec (.addI x) s = .next (s.setI (s.I + zext16 (s.reg x))).advance := rfl

theorem exec_ldF (x : Reg) (s : State) : exec (.ldF x) s =
    nibbleOperand (encodeWord (.ldF x)) (s.reg x) s fun d => .next (s.setI (glyphAddr d)).advance := rfl

/-- LD F on a digit (42_memory_index R262). -/
theorem exec_ldF_digit {x : Reg} {s : State} {d : Fin 16} (h : (s.reg x).toNat = d.val) :
    exec (.ldF x) s = .next (s.setI (glyphAddr d)).advance :=
  (exec_ldF x s).trans (nibbleOperand_digit _ s _ h)

/-- LD F above 0x0F (42_memory_index R262). -/
theorem exec_ldF_large {x : Reg} {s : State} (h : 0x0F < (s.reg x).toNat) :
    exec (.ldF x) s = .fault (.operandRange s.PC (encodeWord (.ldF x)) (s.reg x)) :=
  (exec_ldF x s).trans (nibbleOperand_large _ s _ h)

/-- FX33 inside memory stores the three digits at I (42_memory_index R263). -/
theorem exec_ldB_inside {x : Reg} {s : State} (h : s.I.toNat + 3 ≤ 0x1000) :
    exec (.ldB x) s = .next (s.store s.I.toNat (bcdDigits (s.reg x))).advance :=
  checkRange_inside _ _ (.inr h)

/-- FX33 past 0xFFF (42_memory_index R263, R266). -/
theorem exec_ldB_outside {x : Reg} {s : State} (h : 0x1000 < s.I.toNat + 3) :
    exec (.ldB x) s = .fault (.outOfBounds s.PC (some (encodeWord (.ldB x))) (max s.I.toNat 0x1000)) :=
  checkRange_outside _ _ (Nat.succ_pos _) h

/-- FX55 past 0xFFF (42_memory_index R264, R266). -/
theorem exec_ldMemStore_outside {x : Reg} {s : State} (h : 0x1000 < s.I.toNat + (x.val + 1)) :
    exec (.ldMemStore x) s =
      .fault (.outOfBounds s.PC (some (encodeWord (.ldMemStore x))) (max s.I.toNat 0x1000)) :=
  checkRange_outside _ _ (Nat.succ_pos _) h

/-- FX65 inside memory loads V0..VX from I (42_memory_index R265). -/
theorem exec_ldMemLoad_inside {x : Reg} {s : State} (h : s.I.toNat + (x.val + 1) ≤ 0x1000) :
    exec (.ldMemLoad x) s = .next (s.setRegs 0 (s.bytesAtI (x.val + 1))).advance :=
  checkRange_inside _ _ (.inr h)

/-- FX65 past 0xFFF (42_memory_index R265, R266). -/
theorem exec_ldMemLoad_outside {x : Reg} {s : State} (h : 0x1000 < s.I.toNat + (x.val + 1)) :
    exec (.ldMemLoad x) s =
      .fault (.outOfBounds s.PC (some (encodeWord (.ldMemLoad x))) (max s.I.toNat 0x1000)) :=
  checkRange_outside _ _ (Nat.succ_pos _) h

/-! ### The values they write -/

/-- The glyph of digit `d` stands five bytes after that of the digit before it (42_memory_index R262). -/
theorem glyphAddr_toNat (d : Fin 16) : (glyphAddr d).toNat = 0x050 + 5 * d.val :=
  Nat.mod_eq_of_lt (by simp only [fontBase]; omega)

/-- The registers after V0..VX have been loaded from I (42_memory_index R265). -/
theorem State.reg_setRegs_bytesAtI (s : State) (x r : Reg) :
    (s.setRegs 0 (s.bytesAtI (x.val + 1))).reg r = if r ≤ x then s.byteAt (s.I.toNat + r.val) else s.reg r := by
  have hloaded : 0 ≤ r.val ∧ r.val < 0 + (s.bytesAtI (x.val + 1)).length ↔ r ≤ x := by
    simp
  rw [State.reg_setRegs _ _ _ (by simp)]
  by_cases hr : r ≤ x
  · rw [if_pos hr, dif_pos (hloaded.2 hr), State.getElem_bytesAtI, Nat.sub_zero]
  · rw [if_neg hr, dif_neg (mt hloaded.1 hr)]

@[simp] theorem State.setRegs_PC (s : State) (x : Nat) (vs : List Byte) : (s.setRegs x vs).PC = s.PC := by
  rw [State.setRegs_eq]

end Sys2Proof.Machine

namespace Sys2Proof.Safety

open Sys2Proof Sys2Proof.Machine

/-- An `Fxkk` instruction has the word of its Encoding line (30_encoding R105). -/
theorem HasWord.of_miscWord {i : Instr} {x : Reg} (kk : Byte) (hi : WellFormed i)
    (hword : encodeWord i = wordXNN 0xF x kk) : HasWord i (0xF000 + kk.toNat + x.val * 0x100) := by
  refine .of_wellFormed hi ?_
  rw [hword, wordXNN_toNat]
  exact Nat.add_right_comm _ _ _

/-- An instruction that ends in a new I (42_memory_index R260-R262). -/
theorem setI_answers {i : Instr} {s : State} {v : Word} {n : Nat} (hexec : exec i s = .next (s.setI v).advance)
    (hv : v.toNat = n) :
    ∃ t, exec i s = .next t ∧ t.I.toNat = n ∧ t.PC = s.PC + 2 ∧ OnlyChanges (writtenParts i) s t :=
  ⟨_, hexec, hv, rfl, (exec_effect hexec).onlyChanges⟩

/-- A store keeps every byte but as many as it stores. -/
theorem BytesExcept.store (s : State) (a : Nat) {bs : List Byte} {n : Nat} (hn : bs.length = n) :
    BytesExcept a n s (s.store a bs) := by
  subst hn
  exact fun _ hb => s.byteAt_store_outside a bs hb

end Sys2Proof.Safety
end

section
/-! PROOF. The memory and index instructions one by one (42_memory_index R260-R265). -/

namespace Sys2Proof.Safety

open Sys2Proof Sys2Proof.Machine

/-- Settles O49: the bytes stored at I are the digits of V[X], computed on bytes. -/
theorem decimalDigitsStoredAtIndex : Obligations.DecimalDigitsStoredAtIndex := by
  intro x s
  refine ⟨.of_miscWord 0x33 rfl rfl, fun hin => ?_, fun hout => exec_ldB_outside (by omega)⟩
  have hexec := exec_ldB_inside (x := x) (s := s) (by omega)
  let t := (s.store s.I.toNat (bcdDigits (s.reg x))).advance
  have hhundreds : t.byteAt s.I.toNat = s.reg x / 100 :=
    s.byteAt_store_inside _ (bcdDigits (s.reg x)) (k := 0) (show 0 < 3 by decide)
  have htens : t.byteAt (s.I.toNat + 1) = s.reg x / 10 % 10 := s.byteAt_store_inside _ _ (show 1 < 3 by decide)
  have hones : t.byteAt (s.I.toNat + 2) = s.reg x % 10 := s.byteAt_store_inside _ _ (show 2 < 3 by decide)
  exact ⟨t, hexec, by simp [hhundreds], by simp [htens], by simp [hones], .store s _ rfl, rfl,
    (exec_effect hexec).onlyChanges⟩

/-- Settles O50: the bytes stored at I are V0..VX. -/
theorem registersStoredAtIndex : Obligations.RegistersStoredAtIndex := by
  intro x s
  refine ⟨.of_miscWord 0x55 rfl rfl, fun hin => ?_, fun hout => exec_ldMemStore_outside (by omega)⟩
  have hexec := exec_ldMemStore_inside (x := x) (s := s) (by omega)
  exact ⟨_, hexec, fun r hr => s.byteAt_store_regsUpTo _ hr, .store s _ (s.length_regsUpTo x), rfl,
    (exec_effect hexec).onlyChanges⟩

/-- Settles O51: the registers up to X are the bytes at I, and the others are as before. -/
theorem registersLoadedFromIndex : Obligations.RegistersLoadedFromIndex := by
  intro x s
  refine ⟨.of_miscWord 0x65 rfl rfl, fun hin => ?_, fun hout => exec_ldMemLoad_outside (by omega)⟩
  have hexec := exec_ldMemLoad_inside (x := x) (s := s) (by omega)
  refine ⟨_, hexec, fun r hr => ?_, fun r hr => ?_, congrArg (· + 2) (s.setRegs_PC _ _),
    (exec_effect hexec).onlyChanges⟩
  · exact (s.reg_setRegs_bytesAtI x r).trans (if_pos hr)
  · exact (s.reg_setRegs_bytesAtI x r).trans (if_neg (not_le.2 hr))

/-- Settles O47: NNN is zero-extended, and the sum of two 16-bit words wraps at 0x10000. -/
theorem indexLoadsAndAdds : Obligations.IndexLoadsAndAdds := by
  intro nnn x s
  have hsum : (s.I + zext16 (s.reg x)).toNat = (s.I.toNat + (s.reg x).toNat) % 0x10000 := by
    rw [BitVec.toNat_add, zext16_toNat]
  exact ⟨.of_wellFormed rfl (wordNNN_toNat 0xA nnn), .of_miscWord 0x1E rfl rfl,
    setI_answers (exec_ldI nnn s) (addrOperand_toNat nnn), setI_answers (exec_addI x s) hsum⟩

/-- Settles O48: a V[X] of at most 0x0F is a digit, and I becomes the address of its glyph. -/
theorem glyphAddressForDigit : Obligations.GlyphAddressForDigit := by
  intro x s
  refine ⟨.of_miscWord 0x29 rfl rfl, fun hdigit => ?_, exec_ldF_large⟩
  let d : Fin 16 := ⟨(s.reg x).toNat, Nat.lt_succ_of_le hdigit⟩
  exact setI_answers (exec_ldF_digit (d := d) rfl) (glyphAddr_toNat d)

end Sys2Proof.Safety
end

section
/-! SUPPORT. What the graphics instructions answer, said once: CLS, and DRW through the sprite's pixels (43_graphics
R290-R295). -/

namespace Sys2Proof.Machine

open Sys2Proof

theorem exec_cls (s : State) : exec .cls s = .next (s.setFB clearGrid).advance := rfl

/-- The pixels under the 1 bits of the sprite of `n` bytes at I, drawn at (V[x], V[y]) (43_graphics R291). -/
def State.sprite (s : State) (x y : Reg) (n : Nat) : List (Col × Row) :=
  spritePixels (s.reg x).toNat (s.reg y).toNat (s.bytesAtI n)

/-- The state after the pixels `ps` have been drawn: VF holds the collision (43_graphics R291, R294). -/
def State.draw (s : State) (ps : List (Col × Row)) : State :=
  ((s.setFB (xorWrite s.FB ps).1).setReg flagReg (flagByte (xorWrite s.FB ps).2)).advance

/-- VF after a draw is the flag of its collision (43_graphics R294). -/
theorem State.reg_draw_flag (s : State) (ps : List (Col × Row)) :
    (s.draw ps).reg 15 = flagByte (xorWrite s.FB ps).2 :=
  State.reg_setReg_self _ flagReg _

/-- DRW inside memory, or with no row to read (43_graphics R291, R295). -/
theorem exec_drw_inside {x y : Reg} {n : RowCount} {s : State} (h : n.val = 0 ∨ s.I.toNat + n.val ≤ 0x1000) :
    exec (.drw x y n) s = .next (s.draw (s.sprite x y n.val)) :=
  checkRange_inside _ _ h

/-- DRW past 0xFFF (43_graphics R291). -/
theorem exec_drw_outside {x y : Reg} {n : RowCount} {s : State} (h0 : 0 < n.val) (h : 0x1000 < s.I.toNat + n.val) :
    exec (.drw x y n) s =
      .fault (.outOfBounds s.PC (some (encodeWord (.drw x y n))) (max s.I.toNat 0x1000)) :=
  checkRange_outside _ _ h0 h

/-- A DRW that completes has drawn its sprite, which lies inside memory (43_graphics R291). -/
theorem exec_drw_eq_next {x y : Reg} {n : RowCount} {s t : State} (h : exec (.drw x y n) s = .next t) :
    t = s.draw (s.sprite x y n.val) ∧ (n.val = 0 ∨ s.I.toNat + n.val ≤ 0x1000) := by
  obtain ⟨hdrawn, hrange⟩ := checkRange_eq_next h
  exact ⟨hdrawn.symm, hrange⟩

theorem flagByte_eq_one {b : Bool} : flagByte b = 1 ↔ b = true := by cases b <;> decide

theorem flagByte_eq_zero {b : Bool} : flagByte b = 0 ↔ b = false := by cases b <;> decide

section XorWrite

variable {ps : List (Col × Row)} (hdistinct : ps.Nodup) {g : Grid}
include hdistinct

/-- The pixels that drawing distinct pixels changes are those (43_graphics R291). -/
theorem pixel_xorWrite_ne {x : Col} {y : Row} : (xorWrite g ps).1.pixel x y ≠ g.pixel x y ↔ (x, y) ∈ ps := by
  rw [xorWrite, pixel_foldl_xorPixel ps hdistinct]
  by_cases hmem : (x, y) ∈ ps <;> simp [hmem]

/-- A collision is a pixel that was true and is now false (43_graphics R294). -/
theorem collision_xorWrite :
    (xorWrite g ps).2 = true ↔ ∃ x y, g.pixel x y = true ∧ (xorWrite g ps).1.pixel x y = false := by
  have hany : (xorWrite g ps).2 = ps.any fun p => g.pixel p.1 p.2 := by
    rw [xorWrite, collision_foldl_xorPixel ps hdistinct, Bool.false_or]
  rw [hany, List.any_eq_true, Prod.exists]
  refine exists₂_congr fun x y => and_comm.trans (and_congr_right fun hlit => ?_)
  rw [← pixel_xorWrite_ne hdistinct (g := g), hlit, ne_eq, Bool.not_eq_true]

end XorWrite

end Sys2Proof.Machine

namespace Sys2Proof.Safety

open Sys2Proof Sys2Proof.Machine

/-- The pixels of the sprite at I are those with a 1 bit (43_graphics R291-R293). -/
theorem mem_sprite {s : State} {x y : Reg} {n : Nat} {px : Col} {py : Row} :
    (px, py) ∈ s.sprite x y n ↔ SpriteCovers s x y n px py := by
  simp only [State.sprite, mem_spritePixels, State.length_bytesAtI, State.getElem_bytesAtI, exists_prop, SpriteCovers,
    exists_and_left]

/-- The sprite of a DRW has at most 15 rows, so no two of its bits meet in a pixel (43_graphics R295). -/
theorem nodup_sprite (s : State) (x y : Reg) (n : RowCount) : (s.sprite x y n.val).Nodup :=
  spritePixels_nodup _ _ _ (by rw [State.length_bytesAtI]; omega)

/-- A sprite covers the same pixels wherever memory, I and its coordinates are the same. -/
theorem SpriteCovers.congr {s t : State} {x y : Reg} (hmem : ∀ a, t.byteAt a = s.byteAt a) (hI : t.I = s.I)
    (hx : t.reg x = s.reg x) (hy : t.reg y = s.reg y) (n : Nat) (px : Col) (py : Row) :
    SpriteCovers t x y n px py ↔ SpriteCovers s x y n px py := by
  simp only [SpriteCovers, hmem, hI, hx, hy]

section Draw

variable {x y : Reg} {n : RowCount} {s t : State} (h : exec (.drw x y n) s = .next t)
include h

/-- The pixels that DRW changes are those of its sprite (43_graphics R291). -/
theorem pixel_ne_of_exec_drw {px : Col} {py : Row} :
    t.FB.pixel px py ≠ s.FB.pixel px py ↔ SpriteCovers s x y n.val px py := by
  obtain ⟨rfl, -⟩ := exec_drw_eq_next h
  exact (pixel_xorWrite_ne (nodup_sprite s x y n)).trans mem_sprite

/-- VF is 1 after DRW exactly when a pixel was turned off (43_graphics R294). -/
theorem flag_eq_one_of_exec_drw :
    t.reg 15 = 1 ↔ ∃ px py, s.FB.pixel px py = true ∧ t.FB.pixel px py = false := by
  obtain ⟨rfl, -⟩ := exec_drw_eq_next h
  rw [State.reg_draw_flag, flagByte_eq_one]
  exact collision_xorWrite (nodup_sprite s x y n)

/-- VF is 0 after DRW exactly when no pixel was turned off (43_graphics R294). -/
theorem flag_eq_zero_of_exec_drw :
    t.reg 15 = 0 ↔ ¬ ∃ px py, s.FB.pixel px py = true ∧ t.FB.pixel px py = false := by
  rw [← flag_eq_one_of_exec_drw h]
  obtain ⟨rfl, -⟩ := exec_drw_eq_next h
  rw [State.reg_draw_flag, flagByte_eq_zero, flagByte_eq_one, Bool.not_eq_true]

end Draw

end Sys2Proof.Safety
end

section
/-! PROOF. The graphics instructions one by one (43_graphics R290-R295). -/

namespace Sys2Proof.Safety

open Sys2Proof Sys2Proof.Machine

/-- Settles O53: the pixels that change are those of the sprite, and VF holds the collision. -/
theorem drawInvertsThePixelsOfTheSprite : Obligations.DrawInvertsThePixelsOfTheSprite := by
  intro x y n s
  refine ⟨.of_wellFormed rfl (wordXYN_toNat 0xD x y n), fun hrange => ?_, exec_drw_outside⟩
  have hexec := exec_drw_inside (x := x) (y := y) hrange
  have heffect := exec_effect hexec
  exact ⟨_, hexec, fun _ _ hcovered => Bool.eq_not.2 ((pixel_ne_of_exec_drw hexec).2 hcovered),
    fun _ _ hfree => not_ne_iff.1 (mt (pixel_ne_of_exec_drw hexec).1 hfree), flag_eq_one_of_exec_drw hexec,
    flag_eq_zero_of_exec_drw hexec, heffect.regsExcept, rfl, heffect.onlyChanges⟩

/-- Settles O54: the second draw has the sprite of the first, so it inverts the same pixels back, and the pixels it turns
off are those that the first one lit. -/
theorem drawingTwiceRestoresTheScreen : Obligations.DrawingTwiceRestoresTheScreen := by
  intro x y n s t hfirst hx hy
  have hframe := (exec_effect hfirst).onlyChanges
  have hI : t.I = s.I := hframe .I (by simp [writtenParts])
  have hmem : ∀ a, t.byteAt a = s.byteAt a := hframe .mem (by simp [writtenParts])
  obtain ⟨-, hrange⟩ := exec_drw_eq_next hfirst
  obtain ⟨u, hsecond⟩ : ∃ u, exec (.drw x y n) t = .next u := ⟨_, exec_drw_inside (hI ▸ hrange)⟩
  have hlit (px py) : t.FB.pixel px py ≠ s.FB.pixel px py ↔ SpriteCovers s x y n.val px py :=
    pixel_ne_of_exec_drw hfirst
  have hback (px py) : u.FB.pixel px py ≠ t.FB.pixel px py ↔ SpriteCovers s x y n.val px py :=
    (pixel_ne_of_exec_drw hsecond).trans (SpriteCovers.congr hmem hI hx hy n.val px py)
  have hrestored (px py) : u.FB.pixel px py = s.FB.pixel px py := by
    by_cases hcovered : SpriteCovers s x y n.val px py
    · rw [Bool.eq_not.2 ((hback px py).2 hcovered), Bool.eq_not.2 ((hlit px py).2 hcovered), Bool.not_not]
    · exact (not_ne_iff.1 (mt (hback px py).1 hcovered)).trans (not_ne_iff.1 (mt (hlit px py).1 hcovered))
  refine ⟨u, hsecond, hrestored, (flag_eq_one_of_exec_drw hsecond).trans (exists₂_congr fun px py => ?_)⟩
  rw [hrestored]
  refine and_congr_left fun hdark => ?_
  rw [← hlit, hdark, Bool.ne_false_iff]

/-- Settles O52: the frame buffer becomes the cleared one. -/
theorem clearScreenClearsEveryPixel : Obligations.ClearScreenClearsEveryPixel :=
  ⟨.of_wellFormed rfl rfl, fun s => ⟨_, exec_cls s, Grid.pixel_clear, rfl, (exec_effect (exec_cls s)).onlyChanges⟩⟩

end Sys2Proof.Safety
end

section
/-! SUPPORT. What each timer and input instruction answers, what a waiting step is, and the status of a step
(44_timers_input R320-R340; 60_exceptions R441). -/

namespace Sys2Proof.Machine

open Sys2Proof

theorem exec_ldDtVx (x : Reg) (s : State) : exec (.ldDtVx x) s = .next (s.setDT (s.reg x)).advance := rfl

theorem exec_ldStVx (x : Reg) (s : State) : exec (.ldStVx x) s = .next (s.setST (s.reg x)).advance := rfl

theorem exec_skp (x : Reg) (s : State) :
    exec (.skp x) s = nibbleOperand (encodeWord (.skp x)) (s.reg x) s fun k => skipIf (s.key k) s := rfl

theorem exec_sknp (x : Reg) (s : State) :
    exec (.sknp x) s = nibbleOperand (encodeWord (.sknp x)) (s.reg x) s fun k => skipIf (!s.key k) s := rfl

/-- SKP on a key number (44_timers_input R323). -/
theorem exec_skp_key {x : Reg} {s : State} {k : Key} (h : (s.reg x).toNat = k.val) :
    exec (.skp x) s = skipIf (s.key k) s :=
  (exec_skp x s).trans (nibbleOperand_digit _ s _ h)

/-- SKP above 0x0F (44_timers_input R323). -/
theorem exec_skp_large {x : Reg} {s : State} (h : 0x0F < (s.reg x).toNat) :
    exec (.skp x) s = .fault (.operandRange s.PC (encodeWord (.skp x)) (s.reg x)) :=
  (exec_skp x s).trans (nibbleOperand_large _ s _ h)

/-- SKNP on a key number (44_timers_input R324). -/
theorem exec_sknp_key {x : Reg} {s : State} {k : Key} (h : (s.reg x).toNat = k.val) :
    exec (.sknp x) s = skipIf (!s.key k) s :=
  (exec_sknp x s).trans (nibbleOperand_digit _ s _ h)

/-- SKNP above 0x0F (44_timers_input R324). -/
theorem exec_sknp_large {x : Reg} {s : State} (h : 0x0F < (s.reg x).toNat) :
    exec (.sknp x) s = .fault (.operandRange s.PC (encodeWord (.sknp x)) (s.reg x)) :=
  (exec_sknp x s).trans (nibbleOperand_large _ s _ h)

/-- FX0A with a key held (44_timers_input R330, R331). -/
theorem exec_ldVxK_held {x : Reg} {s : State} {k : Key} (h : s.firstKey = some k) :
    exec (.ldVxK x) s = resultOnly x (keyByte k) s := by
  simp only [exec, execLdVxK, h]
  rfl

/-- FX0A with no key held (44_timers_input R332). -/
theorem exec_ldVxK_none {x : Reg} {s : State} (h : s.firstKey = none) : exec (.ldVxK x) s = .next s := by
  simp only [exec, execLdVxK, h]
  rfl

theorem keyByte_toNat (k : Key) : (keyByte k).toNat = k.val :=
  Nat.mod_eq_of_lt (k.isLt.trans (by decide))

/-! ### Every instruction and every step completes or faults (60_exceptions R400, R441) -/

theorem checkRange_next_or_fault (op : Word) (n : Nat) (s t : State) :
    (∃ u, checkRange op n s (.next t) = .next u) ∨ ∃ f, checkRange op n s (.next t) = .fault f := by
  rcases checkRange_cases op n s (.next t) with ⟨-, e⟩ | ⟨-, -, e⟩
  · exact .inl ⟨_, e⟩
  · exact .inr ⟨_, e⟩

theorem nibbleOperand_next_or_fault (op : Word) (v : Byte) (s : State) {k : Fin 16 → Outcome}
    (hk : ∀ d, ∃ u, k d = .next u) :
    (∃ u, nibbleOperand op v s k = .next u) ∨ ∃ f, nibbleOperand op v s k = .fault f := by
  rcases nibbleOperand_cases op v s k with ⟨d, -, e⟩ | ⟨-, e⟩
  · exact .inl (e ▸ hk d)
  · exact .inr ⟨_, e⟩

theorem exec_next_or_fault (i : Instr) (s : State) : (∃ t, exec i s = .next t) ∨ ∃ f, exec i s = .fault f := by
  cases i with
  | ret =>
    simp only [exec, execRet]
    split
    next => exact .inr ⟨_, rfl⟩
    next => exact .inl ⟨_, rfl⟩
  | call nnn =>
    rcases Nat.lt_or_ge s.S.length 16 with hroom | hfull
    · exact .inl ⟨_, exec_call_room nnn hroom⟩
    · exact .inr ⟨_, exec_call_full nnn hfull⟩
  | ldVxK x =>
    cases h : s.firstKey with
    | some k => exact .inl ⟨_, exec_ldVxK_held h⟩
    | none => exact .inl ⟨_, exec_ldVxK_none h⟩
  | drw _ _ _ | ldB _ | ldMemStore _ | ldMemLoad _ => exact checkRange_next_or_fault _ _ s _
  | ldF _ | skp _ | sknp _ =>
    simp only [exec_ldF, exec_skp, exec_sknp]
    exact nibbleOperand_next_or_fault _ _ s fun _ => ⟨_, rfl⟩
  | _ => exact .inl ⟨_, rfl⟩

theorem cpuStep_next_or_fault (p : Config.UnknownOpcodePolicy) (s : State) :
    (∃ t, cpuStep p s = .next t) ∨ ∃ f, cpuStep p s = .fault f := by
  by_cases hpc : s.PC.toNat ≤ 0xFFE
  · cases hd : decodeWord s.fetchWord with
    | ok i =>
      rw [cpuStep_known hpc hd]
      exact exec_next_or_fault i s
    | error e =>
      rw [cpuStep_unknown hpc hd]
      cases p with
      | fault => exact .inr ⟨_, rfl⟩
      | noOpAdvance => exact .inl ⟨_, rfl⟩
  · exact .inr ⟨_, cpuStep_outside (Nat.lt_of_not_le hpc)⟩

/-! ### Waiting (44_timers_input R332) -/

/-- The fetched word is an FX0A, and no key is held. -/
theorem State.waits_iff {s : State} :
    s.waits = true ↔ (∃ x, decodeWord s.fetchWord = .ok (.ldVxK x)) ∧ ∀ k, s.key k = false := by
  rw [← State.firstKey_eq_none, State.waits]
  split
  next x hx => simp [hx]
  next hother => simpa using fun x hx => absurd hx (hother x)

/-- A waiting step changes nothing. -/
theorem cpuStep_of_waits (p : Config.UnknownOpcodePolicy) {s : State} (hpc : s.PC.toNat ≤ 0xFFE) (hw : s.waits = true) :
    cpuStep p s = .next s := by
  obtain ⟨⟨x, hx⟩, hkeys⟩ := State.waits_iff.1 hw
  exact (cpuStep_known hpc hx).trans (exec_ldVxK_none (State.firstKey_eq_none.2 hkeys))

/-! ### The status of a step (60_exceptions R441) -/

theorem stepStatus_of_fault {p : Config.UnknownOpcodePolicy} {s : State} {f : Fault} (h : cpuStep p s = .fault f) :
    stepStatus p s = .fault f := by
  rw [stepStatus, h]

theorem stepStatus_of_next {p : Config.UnknownOpcodePolicy} {s t : State} (h : cpuStep p s = .next t) :
    stepStatus p s = if s.waits then .waiting else .executed := by
  rw [stepStatus, h]

theorem stepStatus_eq_fault_iff {p : Config.UnknownOpcodePolicy} {s : State} {f : Fault} :
    stepStatus p s = .fault f ↔ cpuStep p s = .fault f := by
  rcases cpuStep_next_or_fault p s with ⟨t, h⟩ | ⟨g, h⟩
  · rw [stepStatus_of_next h, h]
    cases s.waits <;> simp
  · simp [stepStatus_of_fault h, h]

theorem stepStatus_eq_waiting_iff {p : Config.UnknownOpcodePolicy} {s : State} :
    stepStatus p s = .waiting ↔ s.PC.toNat ≤ 0xFFE ∧ s.waits = true := by
  refine ⟨fun h => ?_, fun ⟨hpc, hw⟩ => by rw [stepStatus_of_next (cpuStep_of_waits p hpc hw), if_pos hw]⟩
  rcases cpuStep_next_or_fault p s with ⟨t, hnext⟩ | ⟨f, hfault⟩
  · obtain ⟨hpc, -⟩ := cpuStep_eq_next hnext
    rw [stepStatus_of_next hnext] at h
    exact ⟨hpc, by simpa using h⟩
  · rw [stepStatus_of_fault hfault] at h
    cases h

end Sys2Proof.Machine
end

section
/-! PROOF. The timer and input instructions one by one (44_timers_input R320-R331), waiting (R332) and unknown words
(R340). -/

namespace Sys2Proof.Safety

open Sys2Proof Sys2Proof.Machine

/-- Settles O9: a step completes or faults, and one that completes waits exactly on an FX0A with no key held. -/
theorem onlyKeyWaitWaits : Obligations.OnlyKeyWaitWaits := by
  intro p s
  refine ⟨fun f => stepStatus_eq_fault_iff, ?_, fun h => ?_, fun h => ?_⟩
  · rw [stepStatus_eq_waiting_iff, State.waits_iff]
  · obtain ⟨hpc, hw⟩ := stepStatus_eq_waiting_iff.1 h
    exact cpuStep_of_waits p hpc hw
  · refine (cpuStep_next_or_fault p s).resolve_right fun ⟨f, hfault⟩ => ?_
    rw [stepStatus_of_fault hfault] at h
    cases h

/-- Settles O8: the step on a word that decodes to nothing is what the policy makes of it. -/
theorem unknownWordFollowsPolicy : Obligations.UnknownWordFollowsPolicy := by
  intro s hpc hunknown
  cases hd : decodeWord s.fetchWord with
  | ok i => exact absurd hd (hunknown i)
  | error e =>
    have hnext : cpuStep .noOpAdvance s = .next s.advance := cpuStep_unknown hpc hd
    have hwaits : ¬ s.waits = true := fun hw => by
      obtain ⟨⟨x, hx⟩, -⟩ := State.waits_iff.1 hw
      exact hunknown _ hx
    exact ⟨cpuStep_unknown hpc hd, rfl, (stepStatus_of_next hnext).trans (if_neg hwaits), _, hnext, rfl, .setPC s _⟩

/-- Settles O37: on a key number SKP and SKNP are skips on the key's flag. -/
theorem keySkipsReadTheKeypad : Obligations.KeySkipsReadTheKeypad := by
  intro x s
  refine ⟨.of_wellFormed rfl ((wordXNN_toNat 0xE x 0x9E).trans (Nat.add_right_comm _ _ _)),
    .of_wellFormed rfl ((wordXNN_toNat 0xE x 0xA1).trans (Nat.add_right_comm _ _ _)), fun k hk => ?_,
    fun hlarge => ⟨exec_skp_large hlarge, exec_sknp_large hlarge⟩⟩
  rw [exec_skp_key hk, exec_sknp_key hk]
  exact ⟨skipIf_answers s id id, skipIf_answers s (congrArg not) (congrArg not)⟩

/-- Settles O55: DT moves to V[X] as a result without a flag, and V[X] to a timer as a single update. -/
theorem timerMovesCopyTheValue : Obligations.TimerMovesCopyTheValue := fun x s =>
  ⟨.of_miscWord 0x07 rfl rfl, .of_miscWord 0x15 rfl rfl, .of_miscWord 0x18 rfl rfl, resultOnly_answers rfl rfl,
    ⟨_, exec_ldDtVx x s, rfl, rfl, (exec_effect (exec_ldDtVx x s)).onlyChanges⟩,
    ⟨_, exec_ldStVx x s, rfl, bne_iff_ne, rfl, (exec_effect (exec_ldStVx x s)).onlyChanges⟩⟩

/-- Settles O56: the key latched is the first one held, and its number is a result without a flag. -/
theorem keyWaitLatchesTheLowestKey : Obligations.KeyWaitLatchesTheLowestKey := by
  intro x s
  refine ⟨.of_miscWord 0x0A rfl rfl, fun k hk hlow => ?_, fun hnone => exec_ldVxK_none (State.firstKey_eq_none.2 hnone)⟩
  have hfirst : s.firstKey = some k := State.firstKey_eq_some.2 ⟨hk, hlow⟩
  obtain ⟨t, hnext, hreg, hframe⟩ := resultOnly_answers (exec_ldVxK_held (x := x) hfirst) rfl
  exact ⟨t, hnext, hreg ▸ keyByte_toNat k, hframe⟩

end Sys2Proof.Safety
end

section
/-! SUPPORT. The fault table (60_exceptions R400) against the instructions, and against the step around them, said once as
equivalences; no premise on the stack is needed (log 8). -/

namespace Sys2Proof.Safety

open Sys2Proof Sys2Proof.Machine

/-- `FaultsAs f? o`: the outcome `o` is the fault that `f?` names, or a next state where `f?` names none. -/
inductive FaultsAs : Option Fault → Outcome → Prop where
  | next (t : State) : FaultsAs none (.next t)
  | fault (f : Fault) : FaultsAs (some f) (.fault f)

namespace FaultsAs

theorem eq_fault_iff {f? : Option Fault} {o : Outcome} (h : FaultsAs f? o) {f : Fault} : o = .fault f ↔ f? = some f := by
  cases h <;> simp

theorem eq_none_iff {f? : Option Fault} {o : Outcome} (h : FaultsAs f? o) : f? = none ↔ ∃ t, o = .next t := by
  cases h <;> simp

/-- The range check raises what the table says of an access to `n` bytes at I (42_memory_index R266). -/
theorem checkRange (op : Word) {n : Nat} (hn : 0 < n) (s t : State) :
    FaultsAs (if s.I.toNat + n ≤ 0x1000 then none else some (.outOfBounds s.PC (some op) (max s.I.toNat 0x1000)))
      (checkRange op n s (.next t)) := by
  rcases checkRange_cases op n s (.next t) with ⟨hinside, e⟩ | ⟨-, houtside, e⟩
  · rw [e, if_pos (by omega)]
    exact .next t
  · rw [e, if_neg (Nat.not_le_of_lt houtside)]
    exact .fault _

/-- A digit operand raises what the table says of it (42_memory_index R262; 44_timers_input R323, R324). -/
theorem nibbleOperand (op : Word) (v : Byte) (s : State) {k : Fin 16 → Outcome} (hk : ∀ d, ∃ t, k d = .next t) :
    FaultsAs (if v ≤ 0x0F then none else some (.operandRange s.PC op v)) (nibbleOperand op v s k) := by
  rcases nibbleOperand_cases op v s k with ⟨d, hd, e⟩ | ⟨hlarge, e⟩
  · obtain ⟨t, ht⟩ := hk d
    rw [e, ht, if_pos (BitVec.le_def.2 (hd ▸ Nat.le_of_lt_succ d.isLt))]
    exact .next t
  · rw [e, if_neg fun hv => Nat.not_le_of_lt hlarge (BitVec.le_def.1 hv)]
    exact .fault _

end FaultsAs

/-- Every instruction raises what the table gives for it, and completes where the table gives nothing. -/
theorem exec_faultsAs (i : Instr) (s : State) : FaultsAs (faultOf i s) (exec i s) := by
  cases i with
  | ret =>
    rcases List.eq_nil_or_concat s.S with hempty | ⟨rest, v, hlast⟩
    · rw [exec_ret_nil hempty, faultOf, if_pos hempty]
      exact .fault _
    · rw [exec_ret_append (hlast.trans (List.concat_eq_append ..)), faultOf, if_neg (by simp [hlast])]
      exact .next _
  | call nnn =>
    rcases Nat.lt_or_ge s.S.length 16 with hroom | hfull
    · rw [exec_call_room nnn hroom, faultOf, if_pos hroom]
      exact .next _
    · rw [exec_call_full nnn hfull, faultOf, if_neg (Nat.not_lt_of_le hfull)]
      exact .fault _
  | ldVxK x =>
    cases hkey : s.firstKey with
    | some k => exact exec_ldVxK_held hkey ▸ .next _
    | none => exact exec_ldVxK_none hkey ▸ .next _
  | drw x y n =>
    by_cases hn : n = 0
    · rw [exec_drw_inside (.inl (congrArg Fin.val hn)), faultOf, if_pos hn]
      exact .next _
    · rw [faultOf, if_neg hn]
      exact .checkRange _ (Nat.pos_of_ne_zero fun h0 => hn (Fin.ext h0)) s _
  | ldB _ | ldMemStore _ | ldMemLoad _ => exact .checkRange _ (Nat.succ_pos _) s _
  | ldF _ | skp _ | sknp _ =>
    simp only [exec_ldF, exec_skp, exec_sknp]
    exact .nibbleOperand _ _ s fun _ => ⟨_, rfl⟩
  | _ => exact .next _

theorem exec_eq_fault_iff {i : Instr} {s : State} {f : Fault} : exec i s = .fault f ↔ faultOf i s = some f :=
  (exec_faultsAs i s).eq_fault_iff

/-- The faults of a step in their priority: the fetch, an unknown word under the policy Fault, the instruction's own
(60_exceptions R400, R404). -/
theorem cpuStep_eq_fault_iff {p : Config.UnknownOpcodePolicy} {s : State} {f : Fault} :
    cpuStep p s = .fault f ↔
      (0xFFE < s.PC.toNat ∧ f = .outOfBounds s.PC none (max s.PC.toNat 0x1000)) ∨
      (s.PC.toNat ≤ 0xFFE ∧ decodeWord s.fetchWord = .error (.unknown s.fetchWord) ∧ p = .fault ∧
        f = .unknownOpcode s.PC s.fetchWord) ∨
      (s.PC.toNat ≤ 0xFFE ∧ ∃ i, decodeWord s.fetchWord = .ok i ∧ faultOf i s = some f) := by
  rcases Nat.lt_or_ge 0xFFE s.PC.toNat with hpc | hpc
  · simp [cpuStep_outside hpc, hpc, Nat.not_le_of_lt hpc, eq_comm]
  · cases hd : decodeWord s.fetchWord with
    | ok i => simp [cpuStep_known hpc hd, exec_eq_fault_iff, hpc, Nat.not_lt_of_le hpc]
    | error e =>
      obtain ⟨rfl, -⟩ := decodeWord_eq_error hd
      rw [cpuStep_unknown hpc hd]
      cases p <;> simp [unknownWord, raise, hpc, Nat.not_lt_of_le hpc, eq_comm]

end Sys2Proof.Safety
end

section
/-! SUPPORT. What each transaction at the head of the host's list answers, said once (60_exceptions R440), and what a key
write leaves alone (R431). -/

namespace Sys2Proof.Machine

open Sys2Proof

/-- What the transaction `head` makes of `s`, up to the host's list (60_exceptions R440). -/
def transact (p : Config.UnknownOpcodePolicy) (head : Transaction) (s : State) : Outcome :=
  match head with
  | .step _ => cpuStep p s
  | .reset => .next (resetCore s)
  | .load bytes => .next ((loadImage bytes s).toOption.getD s)
  | .tick => .next (tick s)
  | .key k b => .next (s.setKey k b)
  | .readFB | .readSound => .next s

/-- The transaction at the head of the host's list acts whole, and the rest of the list remains (60_exceptions R442). -/
theorem hostStep_cons {p : Config.UnknownOpcodePolicy} {s : State} {head : Transaction} {rest : List Transaction}
    (h : s.host = head :: rest) : hostStep p s = popHost rest (transact p head s) := by
  cases head with
  | load bytes =>
    simp only [hostStep, h, transact]
    cases loadImage bytes s <;> rfl
  | _ =>
    simp only [hostStep, h]
    rfl

/-- Every transaction completes or faults (60_exceptions R440, R441). -/
theorem transact_next_or_fault (p : Config.UnknownOpcodePolicy) (head : Transaction) (s : State) :
    (∃ t, transact p head s = .next t) ∨ ∃ f, transact p head s = .fault f := by
  cases head with
  | step r => exact cpuStep_next_or_fault p s
  | _ => exact .inl ⟨_, rfl⟩

theorem hostStep_next_or_fault (p : Config.UnknownOpcodePolicy) (s : State) :
    (∃ t, hostStep p s = .next t) ∨ ∃ f, hostStep p s = .fault f := by
  cases h : s.host with
  | nil =>
    rw [hostStep, h]
    exact cpuStep_next_or_fault p s
  | cons head rest =>
    rw [hostStep_cons h]
    rcases transact_next_or_fault p head s with ⟨t, e⟩ | ⟨f, e⟩
    · exact .inl ⟨t.setHost rest, congrArg (popHost rest) e⟩
    · exact .inr ⟨f, congrArg (popHost rest) e⟩

/-- A load writes the image where it fits, and fails where it does not (70_reset_and_hazards R502, R503). -/
theorem loadImage_cases (bytes : List Byte) :
    (∀ s, loadImage bytes s = .ok (s.store Config.programBase bytes)) ∨
      (∀ s, loadImage bytes s = .error .capacityExceeded) := by
  by_cases hlen : Config.programMax < bytes.length
  · exact .inr fun _ => if_pos hlen
  · exact .inl fun _ => if_neg hlen

/-- The keypad after a key write (60_exceptions R431). -/
theorem State.key_setKey (s : State) (k j : Key) (b : Bool) : (s.setKey k b).key j = if k = j then b else s.key j := by
  simp only [State.key, State.setKey, Fin.getElem_fin, Vector.getElem_set, Fin.ext_iff]

end Sys2Proof.Machine

namespace Sys2Proof.Safety

open Sys2Proof Sys2Proof.Machine

theorem OnlyChanges.setKey (s : State) (k : Key) (b : Bool) : OnlyChanges [.K] s (s.setKey k b) := by
  intro p hp
  cases p <;> simp_all [Agree, State.byteAt, State.reg]

end Sys2Proof.Safety
end

section
/-! SUPPORT. Outcomes up to the draw counter (log 1): a state whose next draw is written down, and the same state at another
counter, answer the same (41_data R252; 60_exceptions R443). -/

namespace Sys2Proof.Machine

open Sys2Proof

/-- The two outcomes are one fault, or next states that differ in the draw counter alone. -/
inductive SameUpToDraws : Outcome → Outcome → Prop where
  | next (t : State) (m : Nat) : SameUpToDraws (.next t) (.next { t with drawIndex := m })
  | fault (f : Fault) : SameUpToDraws (.fault f) (.fault f)

/-- Loading registers leaves the draw counter alone. -/
theorem State.setRegs_drawIndex (s : State) (n x : Nat) (vs : List Byte) :
    { s with drawIndex := n }.setRegs x vs = { s.setRegs x vs with drawIndex := n } := by
  induction vs generalizing s x with
  | nil => rfl
  | cons v vs ih => exact ih (s.setReg (Fin.ofNat 16 x) v) (x + 1)

namespace SameUpToDraws

variable {o o' : Outcome}

theorem next_left {t : State} (h : SameUpToDraws (.next t) o) : ∃ m, o = .next { t with drawIndex := m } := by
  cases h with
  | next _ m => exact ⟨m, rfl⟩

theorem fault_left {f : Fault} (h : SameUpToDraws (.fault f) o) : o = .fault f := by
  cases h with
  | fault => rfl

theorem popHost (h : SameUpToDraws o o') (rest : List Transaction) :
    SameUpToDraws (popHost rest o) (popHost rest o') := by
  cases h with
  | next t m => exact .next (t.setHost rest) m
  | fault f => exact .fault f

theorem checkRange (op : Word) (k : Nat) (s : State) (n : Nat) (h : SameUpToDraws o o') :
    SameUpToDraws (checkRange op k s o) (checkRange op k { s with drawIndex := n } o') := by
  unfold Machine.checkRange
  split
  · exact .fault _
  · exact h

theorem nibbleOperand (op : Word) (v : Byte) (s : State) (n : Nat) {k k' : Fin 16 → Outcome}
    (h : ∀ d, SameUpToDraws (k d) (k' d)) :
    SameUpToDraws (nibbleOperand op v s k) (nibbleOperand op v { s with drawIndex := n } k') := by
  unfold Machine.nibbleOperand
  split
  · exact h _
  · exact .fault _

end SameUpToDraws

/-- An instruction whose draw is written down does not read the draw counter (41_data R252). -/
theorem exec_sameUpToDraws {s : State} {r : Byte} {rest : List Transaction} (hhost : s.host = .step r :: rest) (n : Nat)
    (i : Instr) : SameUpToDraws (exec i s) (exec i { s with drawIndex := n }) := by
  cases i with
  | ret =>
    rcases List.eq_nil_or_concat s.S with hempty | ⟨rest, v, hlast⟩
    · rw [exec_ret_nil hempty, exec_ret_nil (s := { s with drawIndex := n }) hempty]
      exact .fault _
    · rw [List.concat_eq_append] at hlast
      rw [exec_ret_append hlast, exec_ret_append (s := { s with drawIndex := n }) hlast]
      exact .next _ n
  | call nnn =>
    rcases Nat.lt_or_ge s.S.length 16 with hroom | hfull
    · rw [exec_call_room nnn hroom, exec_call_room (s := { s with drawIndex := n }) nnn hroom]
      exact .next _ n
    · rw [exec_call_full nnn hfull, exec_call_full (s := { s with drawIndex := n }) nnn hfull]
      exact .fault _
  | ldVxK x =>
    cases hkey : s.firstKey with
    | some k =>
      rw [exec_ldVxK_held hkey, exec_ldVxK_held (s := { s with drawIndex := n }) hkey]
      exact .next _ n
    | none =>
      rw [exec_ldVxK_none hkey, exec_ldVxK_none (s := { s with drawIndex := n }) hkey]
      exact .next _ n
  | rnd x nn =>
    simp only [exec, execRnd, State.rnd_of_draw hhost, State.rnd_of_draw (s := { s with drawIndex := n }) hhost]
    exact .next _ (n + 1)
  | drw _ _ _ | ldB _ | ldMemStore _ => exact .checkRange _ _ s n (.next _ n)
  | ldMemLoad x =>
    refine .checkRange _ _ s n ?_
    rw [State.setRegs_drawIndex s n]
    exact .next _ n
  | ldF _ | skp _ | sknp _ =>
    simp only [exec_ldF, exec_skp, exec_sknp]
    exact .nibbleOperand _ _ s n fun _ => .next _ n
  | _ => exact .next _ n

/-- A step whose draw is written down does not read the draw counter (41_data R252). -/
theorem cpuStep_sameUpToDraws (p : Config.UnknownOpcodePolicy) {s : State} {r : Byte} {rest : List Transaction}
    (hhost : s.host = .step r :: rest) (n : Nat) : SameUpToDraws (cpuStep p s) (cpuStep p { s with drawIndex := n }) := by
  rcases Nat.lt_or_ge 0xFFE s.PC.toNat with hpc | hpc
  · rw [cpuStep_outside hpc, cpuStep_outside (s := { s with drawIndex := n }) hpc]
    exact .fault _
  · cases hd : decodeWord s.fetchWord with
    | ok i =>
      rw [cpuStep_known hpc hd, cpuStep_known (s := { s with drawIndex := n }) hpc hd]
      exact exec_sameUpToDraws hhost n i
    | error e =>
      rw [cpuStep_unknown hpc hd, cpuStep_unknown (s := { s with drawIndex := n }) hpc hd]
      cases p with
      | fault => exact .fault _
      | noOpAdvance => exact .next _ n

/-- A transaction that is written down does not read the draw counter (60_exceptions R443). -/
theorem hostStep_sameUpToDraws (p : Config.UnknownOpcodePolicy) {s : State} (hhost : s.host ≠ []) (n : Nat) :
    SameUpToDraws (hostStep p s) (hostStep p { s with drawIndex := n }) := by
  obtain ⟨head, rest, h⟩ := List.exists_cons_of_ne_nil hhost
  rw [hostStep_cons h, hostStep_cons (s := { s with drawIndex := n }) h]
  refine SameUpToDraws.popHost ?_ rest
  cases head with
  | step r => exact cpuStep_sameUpToDraws p h n
  | load bytes =>
    rcases loadImage_cases bytes with hload | hload <;> rw [transact, transact, hload, hload] <;> exact .next _ n
  | _ => exact .next _ n

end Sys2Proof.Machine
end

section
/-! PROOF. The faults and their records (60_exceptions R400-R404), and the outcomes of a step (R441). -/

namespace Sys2Proof.Safety

open Sys2Proof Sys2Proof.Machine

/-- Settles O11: the outcome of every instruction is what the table gives. -/
theorem instructionFaultsAreThoseListed : Obligations.InstructionFaultsAreThoseListed := fun i s _ =>
  ⟨fun _ => exec_eq_fault_iff, (exec_faultsAs i s).eq_none_iff⟩

/-- Settles O12: by the branches of the step, and the table for the instruction's own fault. -/
theorem stepFaultsAreThoseListed : Obligations.StepFaultsAreThoseListed := fun _ _ _ _ => cpuStep_eq_fault_iff

/-- Settles O13: a fetch fault is raised before there is a word; every later one records the word. -/
theorem faultRecordHoldsPcAndWord : Obligations.FaultRecordHoldsPcAndWord := by
  intro p s f h
  by_cases hpc : 0xFFE < s.PC.toNat
  · rw [cpuStep_outside hpc] at h
    obtain rfl := Host.Outcome.fault.inj h
    exact ⟨rfl, (if_pos hpc).symm⟩
  · rw [if_neg hpc]
    exact cpuStep_eq_fault (Nat.le_of_not_lt hpc) h

/-- Settles O14: the list of faults reads neither the keypad, nor the host's list, nor the draw counter. -/
theorem faultIgnoresDrawAndKeypad : Obligations.FaultIgnoresDrawAndKeypad := by
  intro p s f K ts n h
  rw [cpuStep_eq_fault_iff] at h ⊢
  exact h

/-- Settles O10: an instruction and a step complete or fault, and every other transaction completes. -/
theorem nothingIsRefused : Obligations.NothingIsRefused := by
  refine ⟨fun i s r h => ?_, fun s r h => ?_⟩
  · rcases exec_next_or_fault i s with ⟨t, e⟩ | ⟨f, e⟩ <;> cases e.symm.trans h
  · rcases hostStep_next_or_fault unknownOpcodePolicy s with ⟨t, e⟩ | ⟨f, e⟩ <;> cases e.symm.trans h

end Sys2Proof.Safety
end

section
/-! PROOF. The transactions of the host (60_exceptions R420, R431, R440, R442, R443). -/

namespace Sys2Proof.Safety

open Sys2Proof Sys2Proof.Machine

/-- Settles O19: a transaction that is written down answers the same up to the draw counter. -/
theorem writtenInputsDetermineTransaction : Obligations.WrittenInputsDetermineTransaction := by
  intro p s n hhost
  have hsame := hostStep_sameUpToDraws p hhost n
  exact ⟨fun t h => (h ▸ hsame).next_left, fun f h => (h ▸ hsame).fault_left⟩

/-- Settles O22, by the transaction at the head of the list. -/
theorem hostTransactionsActInOrder : Obligations.HostTransactionsActInOrder := by
  intro p s rest
  refine ⟨fun h => ⟨hostStep_cons h, by rw [response, h]⟩, fun bytes h => ⟨fun t hload => ?_, fun e hload => ?_⟩,
    fun h => ⟨hostStep_cons h, by rw [response, h]⟩, fun k b h => ⟨hostStep_cons h, by rw [response, h]⟩,
    fun h => ⟨hostStep_cons h, by rw [response, h]⟩, fun h => ⟨hostStep_cons h, by rw [response, h]⟩,
    fun r h => ⟨by rw [response, h], fun t hnext => (hostStep_cons h).trans (congrArg (popHost rest) hnext)⟩⟩
  · exact ⟨by rw [hostStep_cons h, transact, hload]; rfl, by simp only [response, h, hload]⟩
  · exact ⟨by rw [hostStep_cons h, transact, hload]; rfl, by simp only [response, h, hload]⟩

/-- Settles O25: a tick is one count of DT and one of ST. -/
theorem tickCountsBothTimersDown : Obligations.TickCountsBothTimersDown := fun s =>
  ⟨countDown_toNat s.DT, countDown_toNat s.ST,
    ((OnlyChanges.refl _ s).andThen (by decide) (.setDT _ _)).andThen (by decide) (.setST _ _)⟩

/-- Settles O26: the written key and the others are two cases of one update. -/
theorem keyWriteSetsOneFlag : Obligations.KeyWriteSetsOneFlag := fun s k b =>
  ⟨by rw [State.key_setKey, if_pos rfl], fun j hj => by rw [State.key_setKey, if_neg hj.symm], .setKey s k b⟩

end Sys2Proof.Safety
end

section
/-! SUPPORT. What a load and a reset make of the state, said once (70_reset_and_hazards R500, R502, R503). -/

namespace Sys2Proof.Machine

open Sys2Proof

/-- An image that fits is stored from 0x200 on (70_reset_and_hazards R502). -/
theorem loadImage_of_le {bytes : List Byte} (s : State) (h : bytes.length ≤ 3584) :
    loadImage bytes s = .ok (s.store 0x200 bytes) := if_neg (Nat.not_lt.2 h)

/-- A longer image makes no new state (70_reset_and_hazards R503). -/
theorem loadImage_of_lt {bytes : List Byte} (s : State) (h : 3584 < bytes.length) :
    loadImage bytes s = .error .capacityExceeded := if_pos h

/-- The font table fills 0x050-0x09F (10_state R41). -/
theorem length_fontData : fontData.length = 80 := rfl

/-- The reset contents of memory, over the addresses themselves (70_reset_and_hazards R500). -/
theorem resetByte_eq (a : Nat) :
    resetByte a = if 0x050 ≤ a ∧ a ≤ 0x09F then fontData.getD (a - 0x050) 0 else 0 := by
  have hfont : (fontBase ≤ a ∧ a < fontBase + fontData.length) ↔ (0x050 ≤ a ∧ a ≤ 0x09F) := by
    rw [length_fontData, fontBase]
    omega
  exact if_congr hfont rfl rfl

/-- The reset transaction leaves the reset state as it is. -/
theorem resetCore_reset : resetCore State.reset = State.reset := rfl

@[simp] theorem State.byteAt_resetCore (s : State) (a : Nat) : (resetCore s).byteAt a = resetByte a := rfl

@[simp] theorem State.reg_resetCore (s : State) (r : Reg) : (resetCore s).reg r = 0 := Vector.getElem_replicate r.isLt

@[simp] theorem State.pixel_resetCore (s : State) (x : Col) (y : Row) : (resetCore s).FB.pixel x y = false :=
  Grid.pixel_clear x y

@[simp] theorem State.key_resetCore (s : State) (k : Key) : (resetCore s).key k = false := Vector.getElem_replicate k.isLt

end Sys2Proof.Machine
end

section
/-! PROOF. The load and reset transactions (70_reset_and_hazards R500, R502, R503). -/

namespace Sys2Proof.Safety

open Sys2Proof Sys2Proof.Machine

/-- Settles O23: an image that fits is one store at 0x200. -/
theorem loadWritesTheImage : Obligations.LoadWritesTheImage := fun s bytes hlen =>
  ⟨s.store 0x200 bytes, loadImage_of_le s hlen, fun _ hk => s.byteAt_store_inside 0x200 bytes hk,
    BytesExcept.store s 0x200 rfl, OnlyChanges.store s 0x200 bytes⟩

/-- Settles O24: the two sides of the load's length check; the longest image that fits ends at 0xFFF. -/
theorem overlongLoadWritesNothing : Obligations.OverlongLoadWritesNothing := by
  refine fun s bytes => ⟨loadImage_of_lt s, fun hlen => ⟨_, loadImage_of_le s hlen.le, fun a hlow hhigh => ?_⟩⟩
  have hk : a - 0x200 < bytes.length := by omega
  have hbyte := s.byteAt_store_inside 0x200 bytes hk
  rw [Nat.add_sub_cancel' hlow] at hbyte
  rw [hbyte, List.getElem?_eq_getElem hk]

/-- Settles O21: the reset state is what the reset transaction makes of itself, so the transaction is the only case. -/
theorem resetStateIsAsListed : Obligations.ResetStateIsAsListed := by
  intro t ht
  obtain ⟨s, rfl⟩ : ∃ s, t = resetCore s := ht.elim (fun h => ⟨State.reset, h.trans resetCore_reset.symm⟩) id
  exact ⟨length_fontData, fun a _ => (s.byteAt_resetCore a).trans (resetByte_eq a), s.reg_resetCore, rfl, rfl, rfl, rfl,
    rfl, rfl, s.pixel_resetCore, s.key_resetCore⟩

end Sys2Proof.Safety
end
